-- ==== Sys2Proof/Word.lean ====
section
/-! DEFINITION. The bit-vector and index types of the core (R8, R20, R72, R199). -/

namespace Sys2Proof

/-- The width of a V register, of DT and of a memory byte (R5). -/
abbrev Byte := BitVec 8

/-- The width of an opcode, of PC, of I and of a stack entry (R5, R28). -/
abbrev Word := BitVec 16

/-- The NNN field (R72). -/
abbrev Addr12 := BitVec 12

/-- The number of a general register; every value 0..15 names one (R20, R74). -/
abbrev Reg := Fin 16

/-- A key code, one of the 16 hex digits (R199). -/
abbrev Key := Fin 16

/-- `VF` is `V[15]` (R9, R21). -/
abbrev vf : Reg := 15

end Sys2Proof
end

