-- ==== Sys2Proof/Config.lean ====
section
/-! DEFINITION. The fixed parameters of the core (R5, R6) and the values the spec leaves free (R7). -/

namespace Sys2Proof.Config

/-- `MEM_SIZE` (R5): the addresses are 0x000 to 0xFFF. -/
def memSize : Nat := 4096

/-- `LOAD_ADDR` (R5). -/
def loadAddr : Nat := 0x200

/-- `MAX_ROM` (R6). -/
def maxRom : Nat := 3584

/-- `PC_RESET` (R5). -/
def pcReset : Word := 0x200

/-- The default of `LOW_IMAGE`: 512 bytes of 0x00 (R7, D4). -/
def defaultLowImage : Vector Byte 512 := Vector.replicate 512 0

/-- FREE VALUE (log 2): the key state at a tick for which the environment's list of events names none (R41, D17). -/
opaque freeLastKey : Nat → Option Key

/-- FREE VALUE (log 2): the random byte of such a tick (R41, D18). -/
opaque freeRand : Nat → Byte

end Sys2Proof.Config
end

