-- ==== Sys2Proof/Syntax.lean ====
section
/-! DEFINITION. The 31 instructions, one constructor per row of the opcode table (R73, R76). -/

namespace Sys2Proof

/-- An instruction. `x` and `y` name registers, `nn` is the immediate byte, `nnn` the 12-bit address, `n` the
row count of a sprite (R72). SHR and SHL keep the Y field, which is decoded and ignored (R78, R128, R130). -/
inductive Instr where
  /-- `00E0` CLS (R175) -/
  | cls
  /-- `00EE` RET (R101) -/
  | ret
  /-- `1NNN` JP nnn (R102) -/
  | jp (nnn : Addr12)
  /-- `2NNN` CALL nnn (R103) -/
  | call (nnn : Addr12)
  /-- `3XNN` SE Vx, nn (R104) -/
  | seImm (x : Reg) (nn : Byte)
  /-- `4XNN` SNE Vx, nn (R105) -/
  | sneImm (x : Reg) (nn : Byte)
  /-- `5XY0` SE Vx, Vy (R106) -/
  | seReg (x y : Reg)
  /-- `6XNN` LD Vx, nn (R120) -/
  | ldImm (x : Reg) (nn : Byte)
  /-- `7XNN` ADD Vx, nn (R121) -/
  | addImm (x : Reg) (nn : Byte)
  /-- `8XY0` LD Vx, Vy (R122) -/
  | ldReg (x y : Reg)
  /-- `8XY1` OR Vx, Vy (R123) -/
  | orReg (x y : Reg)
  /-- `8XY2` AND Vx, Vy (R124) -/
  | andReg (x y : Reg)
  /-- `8XY3` XOR Vx, Vy (R125) -/
  | xorReg (x y : Reg)
  /-- `8XY4` ADD Vx, Vy (R126) -/
  | addReg (x y : Reg)
  /-- `8XY5` SUB Vx, Vy (R127) -/
  | subReg (x y : Reg)
  /-- `8XY6` SHR Vx (R128) -/
  | shr (x y : Reg)
  /-- `8XY7` SUBN Vx, Vy (R129) -/
  | subn (x y : Reg)
  /-- `8XYE` SHL Vx (R130) -/
  | shl (x y : Reg)
  /-- `9XY0` SNE Vx, Vy (R107) -/
  | sneReg (x y : Reg)
  /-- `ANNN` LD I, nnn (R150) -/
  | ldI (nnn : Addr12)
  /-- `CXNN` RND Vx, nn (R131) -/
  | rnd (x : Reg) (nn : Byte)
  /-- `DXYN` DRW Vx, Vy, n (R176) -/
  | drw (x y : Reg) (n : Nat)
  /-- `EX9E` SKP Vx (R190) -/
  | skp (x : Reg)
  /-- `EXA1` SKNP Vx (R191) -/
  | sknp (x : Reg)
  /-- `FX07` LD Vx, DT (R192) -/
  | ldVxDT (x : Reg)
  /-- `FX0A` LD Vx, K (R196) -/
  | ldVxK (x : Reg)
  /-- `FX15` LD DT, Vx (R193) -/
  | ldDTVx (x : Reg)
  /-- `FX1E` ADD I, Vx (R151) -/
  | addIVx (x : Reg)
  /-- `FX33` LD B, Vx (R152) -/
  | ldBVx (x : Reg)
  /-- `FX55` LD [I], Vx (R153) -/
  | ldMemVx (x : Reg)
  /-- `FX65` LD Vx, [I] (R154) -/
  | ldVxMem (x : Reg)
  deriving DecidableEq, Repr

end Sys2Proof
end

