-- ==== Sys2Proof/Machine/State.lean ====
section
/-! DEFINITION. Everything the core holds (R20 to R38), the events it answers (R41), and the state after reset (R46). -/

namespace Sys2Proof.Machine

/-- The four error kinds (R210). -/
inductive ErrorKind where
  /-- No instruction matches the opcode (R211). -/
  | unknownOpcode
  /-- 2NNN with a full stack (R212). -/
  | stackOverflow
  /-- 00EE with an empty stack (R213). -/
  | stackUnderflow
  /-- A fetch or a data access above 0xFFF (R214). -/
  | outOfBoundsAddress
  deriving DecidableEq, Repr

/-- The error record `(kind, opcode, pc, addr)` (R210, D11). -/
structure ErrorRecord where
  kind   : ErrorKind
  /-- The opcode being executed; `none` when the fetch itself failed. -/
  opcode : Option Word
  /-- The fetch address of the instruction. -/
  pc     : Word
  /-- The lowest out-of-range address, for OutOfBoundsAddress only; an exact integer (R55). -/
  addr   : Option Nat
  deriving DecidableEq, Repr

/-- The run status (R36). -/
inductive RunStatus where
  /-- The next InstrTick fetches at PC. -/
  | running
  /-- An FX0A with X = x waits for a key event (R37). -/
  | waitKey (x : Reg)
  /-- A fatal error has happened; only Reset leaves this status (R218). -/
  | halted (err : ErrorRecord)
  deriving DecidableEq, Repr

/-- The input events (R41). -/
inductive Event where
  /-- `Reset(rom, low)`. -/
  | reset (rom : List Byte) (low : Vector Byte 512)
  /-- `InstrTick(lastKey, rand)`: one instruction, with the key state and the random byte of this tick. -/
  | instrTick (lastKey : Option Key) (rand : Byte)
  /-- `TimerTick`. -/
  | timerTick
  /-- `KeyEvent(k)`. -/
  | keyEvent (k : Key)
  deriving DecidableEq, Repr

/-- `FB[row][col]`, row-major, one bit a cell (R33, D22). -/
abbrev Framebuffer := Vector (Vector Bool 64) 32

/-- Memory as the listed (address, byte) pairs; an unlisted address reads 0x00 (log 6). -/
abbrev Memory := List Host.Cell

/-- The state of the core, and after it the two fields of the model's own (`events`, `draws`). -/
structure State where
  /-- `V[0..15]` (R20). -/
  v : Vector Byte 16
  /-- `I` (R27). -/
  index : Word
  /-- `PC` (R23). -/
  pc : Word
  /-- `SP`, 0..16 (R28). -/
  sp : Fin 17
  /-- `STACK[0..15]` (R28). -/
  stack : Vector Word 16
  /-- `DT` (R30). -/
  dt : Byte
  /-- `FB` (R33). -/
  fb : Framebuffer
  /-- `MEM` (R32). -/
  mem : Memory
  /-- `RUN` (R36). -/
  run : RunStatus
  /-- Model's own (log 1): the events the environment presents next, oldest first. -/
  events : List Event
  /-- Model's own (log 2): how many events have been taken; the index of the free values of Config. -/
  draws : Nat
  deriving DecidableEq, Repr

/-- Every cell 0. -/
def blankFramebuffer : Framebuffer := Vector.replicate 32 (Vector.replicate 64 false)

/-- The state after `Reset(rom = empty, low = all 0x00)` (R46). PC, SP and RUN are the document's; the zeros are the
spec's decisions D3, D4, D5 (logs 5, 6, 7); `events` and `draws` are the model's (logs 1, 2). -/
def State.reset : State where
  v := Vector.replicate 16 0
  index := 0
  pc := Config.pcReset
  sp := 0
  stack := Vector.replicate 16 0
  dt := 0
  fb := blankFramebuffer
  mem := []
  run := .running
  events := []
  draws := 0

/-- Why a step stops with a fault. There is no constructor: every error the spec describes is a state of the core,
`Halted(err)`, which answers further events (R43, R215, R218), so no step ends here (log 10). Safe. -/
inductive Fault
  deriving DecidableEq, Repr

/-- Why a step has no transition. -/
inductive Refusal where
  /-- Raised by exec's arm of an instruction that has no meaning yet. Safe: nothing is claimed of it. -/
  | notModelled (mnemonic : String)
  /-- Raised by the Reset event with a ROM of more than 3584 bytes, which has no transition (R242, D25; log 9). Safe. -/
  | romTooLong (length : Nat)
  deriving DecidableEq, Repr

/-- What a step, an event or an instruction answers. -/
abbrev Result := Host.Outcome State Fault Refusal

end Sys2Proof.Machine
end

