-- ==== Sys2Proof/Machine/Flags.lean ====
section
/-! DEFINITION. The results and flags of the register arithmetic: operands become exact integers, the result is
narrowed at the end (R11, R132). A flag is the whole byte 0x00 or 0x01 (R133). -/

namespace Sys2Proof.Machine

/-- A flag as the byte written to VF (R133). -/
def flagByte (c : Bool) : Byte := if c then 0x01 else 0x00

/-- `(a + b) mod 256` (R121, R126). -/
def addByte (a b : Byte) : Byte := BitVec.ofNat 8 (a.toNat + b.toNat)

/-- The carry of 8XY4: the exact sum is above 255 (R126, C4). -/
def carryFlag (a b : Byte) : Byte := flagByte (decide (255 < a.toNat + b.toNat))

/-- `(a - b) mod 256` (R127, R129). -/
def subByte (a b : Byte) : Byte := BitVec.ofInt 8 ((a.toNat : Int) - (b.toNat : Int))

/-- The not-borrow flag of `a - b`: 0 iff b > a (R127, R129). -/
def notBorrowFlag (a b : Byte) : Byte := flagByte (decide (b.toNat ≤ a.toNat))

/-- `a >> 1` (R128). -/
def shrByte (a : Byte) : Byte := a >>> 1

/-- The bit shifted out to the right: bit 0 (R128). -/
def shrFlag (a : Byte) : Byte := flagByte (a.getLsbD 0)

/-- `(a << 1) mod 256` (R130). -/
def shlByte (a : Byte) : Byte := a <<< 1

/-- The bit shifted out to the left: bit 7 (R130). -/
def shlFlag (a : Byte) : Byte := flagByte (a.getLsbD 7)

/-- `(I + a) mod 65536` (R151, D7). -/
def addIndex (i : Word) (a : Byte) : Word := BitVec.ofNat 16 (i.toNat + a.toNat)

/-- The flag of FX1E: the exact sum is above 0xFFF (R151). -/
def indexFlag (i : Word) (a : Byte) : Byte := flagByte (decide (0xFFF < i.toNat + a.toNat))

/-- The decimal digits of a byte, hundreds first (R152). -/
def bcdDigits (a : Byte) : List Byte :=
  [BitVec.ofNat 8 (a.toNat / 100), BitVec.ofNat 8 (a.toNat / 10 % 10), BitVec.ofNat 8 (a.toNat % 10)]

end Sys2Proof.Machine
end

