-- ==== Sys2Proof/Machine/Ops.lean ====
section
/-! DEFINITION. The named operations over registers, memory, stack and framebuffer, entering an error, and reset. -/

namespace Sys2Proof.Machine

/-! ## Registers (R20) -/

/-- Read `V[x]`. -/
def State.getV (s : State) (x : Reg) : Byte := s.v[x]

/-- `V[x] <- b`. -/
def State.setV (s : State) (x : Reg) (b : Byte) : State := { s with v := s.v.set x b }

/-- `PC <- w`. -/
def State.setPc (s : State) (w : Word) : State := { s with pc := w }

/-- `I <- w`. -/
def State.setIndex (s : State) (w : Word) : State := { s with index := w }

/-- `DT <- b`. -/
def State.setDt (s : State) (b : Byte) : State := { s with dt := b }

/-- `FB <- fb`. -/
def State.setFb (s : State) (fb : Framebuffer) : State := { s with fb := fb }

/-- `MEM <- m`. -/
def State.setMem (s : State) (m : Memory) : State := { s with mem := m }

/-- `RUN <- r`. -/
def State.setRun (s : State) (r : RunStatus) : State := { s with run := r }

/-- The fetch's `PC <- pc0 + 2` (R71), the first effect of every instruction. -/
def State.advance (s : State) : State := { s with pc := s.pc + 2 }

/-- Skip the next instruction when `c` holds: two more on the already advanced PC (R100). -/
def State.skipWhen (s : State) (c : Bool) : State := { s with pc := if c then s.pc + 2 else s.pc }

/-! ## Memory (R50 to R60) -/

/-- The byte at an address; an unlisted address reads 0x00 (R46, R59; log 6). -/
def Memory.read : Memory → Nat → Byte
  | [], _ => 0
  | (k, b) :: rest, a => if k = a then b else Memory.read rest a

/-- Store a byte and keep the canonical form: rising addresses, no listed 0x00. -/
def Memory.write : Memory → Nat → Byte → Memory
  | [], a, b => if b = 0 then [] else [(a, b)]
  | (k, c) :: rest, a, b =>
    if a < k then (if b = 0 then (k, c) :: rest else (a, b) :: (k, c) :: rest)
    else if a = k then (if b = 0 then rest else (a, b) :: rest)
    else (k, c) :: Memory.write rest a b

/-- The cells listed from address `lo` on: rising, below 4096, none 0x00. -/
def Memory.wfFrom : Nat → Memory → Bool
  | _, [] => true
  | lo, (k, b) :: rest => decide (lo ≤ k) && decide (k < Config.memSize) && decide (b ≠ 0) && Memory.wfFrom (k + 1) rest

/-- The canonical form of memory. -/
def Memory.wf (m : Memory) : Bool := Memory.wfFrom 0 m

/-- Consecutive bytes as cells from a base address, the zeros left unlisted. -/
def Memory.ofBytes : Nat → List Byte → Memory
  | _, [] => []
  | a, b :: rest => if b = 0 then Memory.ofBytes (a + 1) rest else (a, b) :: Memory.ofBytes (a + 1) rest

/-- The bytes at base, base+1, …, `count` of them. -/
def Memory.readBytes (m : Memory) (base : Nat) : Nat → List Byte
  | 0 => []
  | count + 1 => m.read base :: Memory.readBytes m (base + 1) count

/-- Store bytes at base, base+1, … in that order (R53). -/
def Memory.writeBytes (m : Memory) (base : Nat) : List Byte → Memory
  | [] => m
  | b :: rest => Memory.writeBytes (m.write base b) (base + 1) rest

/-- `CheckRange(base, count)` (R155): the address to report when some byte of the access lies above 0xFFF. -/
def checkRange (base count : Nat) : Option Nat :=
  if 0 < count ∧ Config.memSize ≤ base + count - 1 then some (max base Config.memSize) else none

/-! ## Register transfers (R153, R154) -/

/-- The bytes of `V[0]..V[x]`. -/
def State.regsUpTo (s : State) (x : Reg) : List Byte := s.v.toList.take (x.val + 1)

/-- `V[k], V[k+1], … <-` the bytes, in that order. -/
def loadRegs (v : Vector Byte 16) (k : Nat) : List Byte → Vector Byte 16
  | [] => v
  | b :: rest => loadRegs (v.setIfInBounds k b) (k + 1) rest

/-! ## Call stack (R28, R29) -/

/-- `Push(w)`: `none` when SP = 16. -/
def State.push (s : State) (w : Word) : Option State :=
  if h : s.sp.val < 16 then
    some { s with stack := s.stack.set s.sp.val w, sp := ⟨s.sp.val + 1, Nat.succ_lt_succ h⟩ }
  else none

/-- `Pop()`: `none` when SP = 0. The entry left behind keeps its value (D21). -/
def State.pop (s : State) : Option (Word × State) :=
  if s.sp.val = 0 then none
  else
    have h : s.sp.val - 1 < 16 := Nat.lt_of_le_of_lt (Nat.sub_le_sub_right (Nat.le_of_lt_succ s.sp.isLt) 1) (by decide)
    some (s.stack[s.sp.val - 1], { s with sp := ⟨s.sp.val - 1, Nat.lt_succ_of_lt h⟩ })

/-! ## Framebuffer (R33, R170 to R174) -/

/-- `FB[row][col]`. -/
def Framebuffer.cell (fb : Framebuffer) (row : Fin 32) (col : Fin 64) : Bool := fb[row][col]

/-- `FB[row][col] <- b`. -/
def Framebuffer.setCell (fb : Framebuffer) (row : Fin 32) (col : Fin 64) (b : Bool) : Framebuffer :=
  fb.set row (fb[row].set col b)

/-- `Clear()` (R170). -/
def clearedFramebuffer : Framebuffer := blankFramebuffer

/-- The row of sprite row `r`: `(y + r) mod 32` (R172). -/
def spriteRow (y : Byte) (r : Nat) : Fin 32 := ⟨(y.toNat + r) % 32, Nat.mod_lt _ (by decide)⟩

/-- The column of sprite column `c`: `(x + c) mod 64` (R172). -/
def spriteCol (x : Byte) (c : Nat) : Fin 64 := ⟨(x.toNat + c) % 64, Nat.mod_lt _ (by decide)⟩

/-- Column `c` of a sprite byte: bit 7 - c, the MSB leftmost (R171, R179). -/
def spriteBit (b : Byte) (c : Nat) : Bool := b.getLsbD (7 - c)

/-- One turn of the inner loop of R171: collision from the old value, then XOR. -/
def drawCell (x y : Byte) (r : Nat) (b : Byte) (p : Framebuffer × Bool) (c : Nat) : Framebuffer × Bool :=
  let old := Framebuffer.cell p.1 (spriteRow y r) (spriteCol x c)
  (Framebuffer.setCell p.1 (spriteRow y r) (spriteCol x c) (old ^^ spriteBit b c), p.2 || (old && spriteBit b c))

/-- The inner loop of R171, columns left to right. -/
def drawRow (x y : Byte) (r : Nat) (b : Byte) (p : Framebuffer × Bool) : Framebuffer × Bool :=
  [0, 1, 2, 3, 4, 5, 6, 7].foldl (drawCell x y r b) p

/-- The outer loop of R171 from sprite row `r` on. -/
def drawRows (x y : Byte) : Nat → List Byte → Framebuffer × Bool → Framebuffer × Bool
  | _, [], p => p
  | r, b :: rest, p => drawRows x y (r + 1) rest (drawRow x y r b p)

/-- `Draw(x, y, spriteBytes)`: the new framebuffer and the collision result (R171). -/
def draw (fb : Framebuffer) (x y : Byte) (bytes : List Byte) : Framebuffer × Bool := drawRows x y 0 bytes (fb, false)

/-! ## The inputs of the current tick (R41) -/

/-- `LastKey()`: the key state of the InstrTick being taken; free where the environment lists none (log 2). -/
def State.lastKey (s : State) : Option Key :=
  match s.events with
  | .instrTick k _ :: _ => k
  | _ => Config.freeLastKey s.draws

/-- `Rand()`: the random byte of the InstrTick being taken; free where the environment lists none (log 2). -/
def State.rand (s : State) : Byte :=
  match s.events with
  | .instrTick _ r :: _ => r
  | _ => Config.freeRand s.draws

/-! ## Errors (R210 to R218) and the one way out of them -/

/-- Entering a fault: the state before the tick with `RUN <- Halted(err)`, PC being the fetch address (R215). -/
def raise (kind : ErrorKind) (opcode : Option Word) (addr : Option Nat) (s : State) : State :=
  { s with run := .halted { kind := kind, opcode := opcode, pc := s.pc, addr := addr } }

/-- A data access of `count` bytes at `base`: OutOfBoundsAddress with no other effect, or the given next state (R56). -/
def guardRange (base count : Nat) (opcode : Word) (s t : State) : Result :=
  match checkRange base count with
  | some a => .next (raise .outOfBoundsAddress (some opcode) (some a) s)
  | none => .next t

/-- The numeric code of an error kind (R210). -/
def ErrorKind.code : ErrorKind → Nat
  | .unknownOpcode => 1
  | .stackOverflow => 2
  | .stackUnderflow => 3
  | .outOfBoundsAddress => 4

/-- The code on the error port: 0 when RUN is not Halted (R210). -/
def RunStatus.errorCode : RunStatus → Nat
  | .running => 0
  | .waitKey _ => 0
  | .halted err => err.kind.code

/-- Memory after `Reset(rom, low)`: LOW_IMAGE below 0x200, the ROM from 0x200, 0x00 above it (R46, R241). -/
def resetMemory (rom : List Byte) (low : Vector Byte 512) : Memory :=
  Memory.ofBytes 0 low.toList ++ Memory.ofBytes Config.loadAddr rom

/-- The reset state of R46 from any run status: the only way out of Halted (R218, R240). The environment's list of
events and the counter are not core state and stay (log 20). -/
def State.afterReset (s : State) (rom : List Byte) (low : Vector Byte 512) : State :=
  { State.reset with mem := resetMemory rom low, events := s.events, draws := s.draws }

end Sys2Proof.Machine
end

