-- ==== Sys2Proof/Machine/Operands.lean ====
section
/-! DEFINITION. The operand forms beyond a plain register (R74): the address NNN, and the memory operand based on I. -/

namespace Sys2Proof.Machine

/-- `NNN`, zero-extended to the 16 bits of PC or I (R74). -/
def zextNNN (nnn : Addr12) : Word := nnn.setWidth 16

/-- The base address of the memory instructions: I as an exact integer (R27, R55). -/
def State.base (s : State) : Nat := s.index.toNat

/-- The sprite bytes of DXYN: `MEM[I .. I+n-1]` (R176). -/
def State.spriteBytes (s : State) (n : Nat) : List Byte := s.mem.readBytes s.base n

/-- The key state equals the whole byte `a`; `none` equals nothing (R190, R191, D29). -/
def keyMatches (k : Option Key) (a : Byte) : Bool :=
  match k with
  | none => false
  | some k => decide (k.val = a.toNat)

/-- A key code as the byte a register receives (R197). -/
def keyByte (k : Key) : Byte := BitVec.ofNat 8 k.val

end Sys2Proof.Machine
end

