-- ==== Sys2Proof/Machine/Alu.lean ====
section
/-! DEFINITION. Register arithmetic and logic (41_alu.md). Operands are read before any write; writes happen in the
order of the rule's pseudocode and a later write to the same register wins (R10, D6; log 11). -/

namespace Sys2Proof.Machine

/-- R120. -/
def execLdImm (x : Reg) (nn : Byte) (s : State) : Result := .next (s.advance.setV x nn)

/-- R121: no flag. -/
def execAddImm (x : Reg) (nn : Byte) (s : State) : Result := .next (s.advance.setV x (addByte (s.getV x) nn))

/-- R122. -/
def execLdReg (x y : Reg) (s : State) : Result := .next (s.advance.setV x (s.getV y))

/-- R123: VF is not cleared. -/
def execOrReg (x y : Reg) (s : State) : Result := .next (s.advance.setV x (s.getV x ||| s.getV y))

/-- R124. -/
def execAndReg (x y : Reg) (s : State) : Result := .next (s.advance.setV x (s.getV x &&& s.getV y))

/-- R125. -/
def execXorReg (x y : Reg) (s : State) : Result := .next (s.advance.setV x (s.getV x ^^^ s.getV y))

/-- R126: the sum, then the carry. -/
def execAddReg (x y : Reg) (s : State) : Result :=
  .next ((s.advance.setV x (addByte (s.getV x) (s.getV y))).setV vf (carryFlag (s.getV x) (s.getV y)))

/-- R127: the difference, then not-borrow. -/
def execSubReg (x y : Reg) (s : State) : Result :=
  .next ((s.advance.setV x (subByte (s.getV x) (s.getV y))).setV vf (notBorrowFlag (s.getV x) (s.getV y)))

/-- R128: the shifted-out bit, then the shifted value; Y is not read. -/
def execShr (x _y : Reg) (s : State) : Result :=
  .next ((s.advance.setV vf (shrFlag (s.getV x))).setV x (shrByte (s.getV x)))

/-- R129: the difference with the operands swapped, then not-borrow. -/
def execSubn (x y : Reg) (s : State) : Result :=
  .next ((s.advance.setV x (subByte (s.getV y) (s.getV x))).setV vf (notBorrowFlag (s.getV y) (s.getV x)))

/-- R130: the shifted-out bit, then the shifted value; Y is not read. -/
def execShl (x _y : Reg) (s : State) : Result :=
  .next ((s.advance.setV vf (shlFlag (s.getV x))).setV x (shlByte (s.getV x)))

/-- R131: the tick's random byte masked by NN. -/
def execRnd (x : Reg) (nn : Byte) (s : State) : Result := .next (s.advance.setV x (s.rand &&& nn))

end Sys2Proof.Machine
end

