-- ==== Sys2Proof/Decode.lean ====
section
/-! DEFINITION. The decoder (R70 to R79), total on any bytes, and after it the encoder. -/

namespace Sys2Proof

/-- Why bytes are not an instruction. -/
inductive Reject where
  /-- No arm of R76 matches; carries the raw opcode (R77). -/
  | unknownOpcode (opcode : Word)
  /-- Fewer than the two bytes an instruction has (R70). -/
  | truncated
  deriving DecidableEq, Repr

/-- The family digit `opcode[15:12]` (R72). -/
def fieldFamily (w : Word) : Nat := w.toNat / 0x1000

/-- `X = opcode[11:8]` (R72). -/
def fieldX (w : Word) : Reg := ⟨w.toNat / 0x100 % 16, Nat.mod_lt _ (by decide)⟩

/-- `Y = opcode[7:4]` (R72). -/
def fieldY (w : Word) : Reg := ⟨w.toNat / 0x10 % 16, Nat.mod_lt _ (by decide)⟩

/-- `N = opcode[3:0]` (R72). -/
def fieldN (w : Word) : Nat := w.toNat % 16

/-- `NN = opcode[7:0]` (R72). -/
def fieldNN (w : Word) : Byte := w.setWidth 8

/-- `NNN = opcode[11:0]` (R72). -/
def fieldNNN (w : Word) : Addr12 := w.setWidth 12

/-- Family 0: only 00E0 and 00EE (R75, R76). -/
def decodeFamily0 (w : Word) : Except Reject Instr :=
  if w = 0x00E0 then .ok .cls
  else if w = 0x00EE then .ok .ret
  else .error (.unknownOpcode w)

/-- Family 8: the function digit is N (R76). -/
def decodeFamily8 (w : Word) : Except Reject Instr :=
  match fieldN w with
  | 0x0 => .ok (.ldReg (fieldX w) (fieldY w))
  | 0x1 => .ok (.orReg (fieldX w) (fieldY w))
  | 0x2 => .ok (.andReg (fieldX w) (fieldY w))
  | 0x3 => .ok (.xorReg (fieldX w) (fieldY w))
  | 0x4 => .ok (.addReg (fieldX w) (fieldY w))
  | 0x5 => .ok (.subReg (fieldX w) (fieldY w))
  | 0x6 => .ok (.shr (fieldX w) (fieldY w))
  | 0x7 => .ok (.subn (fieldX w) (fieldY w))
  | 0xE => .ok (.shl (fieldX w) (fieldY w))
  | _ => .error (.unknownOpcode w)

/-- Family E: the function byte is NN (R76). -/
def decodeFamilyE (w : Word) : Except Reject Instr :=
  match (fieldNN w).toNat with
  | 0x9E => .ok (.skp (fieldX w))
  | 0xA1 => .ok (.sknp (fieldX w))
  | _ => .error (.unknownOpcode w)

/-- Family F: the function byte is NN (R76). -/
def decodeFamilyF (w : Word) : Except Reject Instr :=
  match (fieldNN w).toNat with
  | 0x07 => .ok (.ldVxDT (fieldX w))
  | 0x0A => .ok (.ldVxK (fieldX w))
  | 0x15 => .ok (.ldDTVx (fieldX w))
  | 0x1E => .ok (.addIVx (fieldX w))
  | 0x33 => .ok (.ldBVx (fieldX w))
  | 0x55 => .ok (.ldMemVx (fieldX w))
  | 0x65 => .ok (.ldVxMem (fieldX w))
  | _ => .error (.unknownOpcode w)

/-- The decoder of R76. Matching is exact: no digit is a don't-care (R78, D8). -/
def decode (w : Word) : Except Reject Instr :=
  match fieldFamily w with
  | 0x0 => decodeFamily0 w
  | 0x1 => .ok (.jp (fieldNNN w))
  | 0x2 => .ok (.call (fieldNNN w))
  | 0x3 => .ok (.seImm (fieldX w) (fieldNN w))
  | 0x4 => .ok (.sneImm (fieldX w) (fieldNN w))
  | 0x5 => if fieldN w = 0 then .ok (.seReg (fieldX w) (fieldY w)) else .error (.unknownOpcode w)
  | 0x6 => .ok (.ldImm (fieldX w) (fieldNN w))
  | 0x7 => .ok (.addImm (fieldX w) (fieldNN w))
  | 0x8 => decodeFamily8 w
  | 0x9 => if fieldN w = 0 then .ok (.sneReg (fieldX w) (fieldY w)) else .error (.unknownOpcode w)
  | 0xA => .ok (.ldI (fieldNNN w))
  | 0xC => .ok (.rnd (fieldX w) (fieldNN w))
  | 0xD => .ok (.drw (fieldX w) (fieldY w) (fieldN w))
  | 0xE => decodeFamilyE w
  | 0xF => decodeFamilyF w
  | _ => .error (.unknownOpcode w)

/-- `opcode = {hi, lo}`: the byte at the lower address is opcode[15:8] (R53). -/
def opcodeOf (hi lo : Byte) : Word := hi ++ lo

/-- The decoder on bytes in address order: the instruction and the bytes after it. -/
def decodeBytes : List Byte → Except Reject (Instr × List Byte)
  | hi :: lo :: rest =>
    match decode (opcodeOf hi lo) with
    | .ok i => .ok (i, rest)
    | .error r => .error r
  | [_] | [] => .error .truncated

/-- Four hex digits as an opcode, the family digit first. -/
def digits (f x y n : Nat) : Word := BitVec.ofNat 16 (f * 0x1000 + x * 0x100 + y * 0x10 + n)

/-- A family digit and a 12-bit address (format A of R73). -/
def digitsNNN (f : Nat) (nnn : Addr12) : Word := BitVec.ofNat 16 (f * 0x1000 + nnn.toNat)

/-- A family digit, a register and a byte (formats XNN and X of R73). -/
def digitsXNN (f : Nat) (x : Reg) (nn : Byte) : Word := BitVec.ofNat 16 (f * 0x1000 + x.val * 0x100 + nn.toNat)

/-- The encoder, from the patterns of R73 and R76. -/
def encode : Instr → Word
  | .cls => 0x00E0
  | .ret => 0x00EE
  | .jp nnn => digitsNNN 0x1 nnn
  | .call nnn => digitsNNN 0x2 nnn
  | .seImm x nn => digitsXNN 0x3 x nn
  | .sneImm x nn => digitsXNN 0x4 x nn
  | .seReg x y => digits 0x5 x y 0x0
  | .ldImm x nn => digitsXNN 0x6 x nn
  | .addImm x nn => digitsXNN 0x7 x nn
  | .ldReg x y => digits 0x8 x y 0x0
  | .orReg x y => digits 0x8 x y 0x1
  | .andReg x y => digits 0x8 x y 0x2
  | .xorReg x y => digits 0x8 x y 0x3
  | .addReg x y => digits 0x8 x y 0x4
  | .subReg x y => digits 0x8 x y 0x5
  | .shr x y => digits 0x8 x y 0x6
  | .subn x y => digits 0x8 x y 0x7
  | .shl x y => digits 0x8 x y 0xE
  | .sneReg x y => digits 0x9 x y 0x0
  | .ldI nnn => digitsNNN 0xA nnn
  | .rnd x nn => digitsXNN 0xC x nn
  | .drw x y n => digits 0xD x y n
  | .skp x => digitsXNN 0xE x 0x9E
  | .sknp x => digitsXNN 0xE x 0xA1
  | .ldVxDT x => digitsXNN 0xF x 0x07
  | .ldVxK x => digitsXNN 0xF x 0x0A
  | .ldDTVx x => digitsXNN 0xF x 0x15
  | .addIVx x => digitsXNN 0xF x 0x1E
  | .ldBVx x => digitsXNN 0xF x 0x33
  | .ldMemVx x => digitsXNN 0xF x 0x55
  | .ldVxMem x => digitsXNN 0xF x 0x65

/-- The two bytes of an opcode in address order, high byte first (R53). -/
def bytesOfOpcode (w : Word) : List Byte := [w.extractLsb' 8 8, w.setWidth 8]

/-- The opcode of a table word: the low `nbits` bits of `w`, the bits above them 0. -/
def tableOpcode (nbits w : Nat) : Word := BitVec.ofNat 16 (w % 2 ^ nbits)

/-- What the decoder reads from a word of the opcode table, laid out in memory as the core fetches it. -/
def decodeTableWord (nbits w : Nat) : Option Instr :=
  match decodeBytes (bytesOfOpcode (tableOpcode nbits w)) with
  | .ok (i, _) => some i
  | .error _ => none

end Sys2Proof
end

