-- ==== Sys2Proof/Machine/ControlFlow.lean ====
section
/-! DEFINITION. Jumps, calls, returns and register skips (40_control_flow.md). A meaning takes the state in which PC is
still the fetch address, and its first effect is the fetch's advance of PC (R71; log 3). -/

namespace Sys2Proof.Machine

/-- R101. -/
def execRet (s : State) : Result :=
  match s.advance.pop with
  | some (w, t) => .next (t.setPc w)
  | none => .next (raise .stackUnderflow (some (encode .ret)) none s)

/-- R102. -/
def execJp (nnn : Addr12) (s : State) : Result := .next (s.advance.setPc (zextNNN nnn))

/-- R103: the pushed PC is the post-fetch PC. -/
def execCall (nnn : Addr12) (s : State) : Result :=
  match s.advance.push s.advance.pc with
  | some t => .next (t.setPc (zextNNN nnn))
  | none => .next (raise .stackOverflow (some (encode (.call nnn))) none s)

/-- R104. -/
def execSeImm (x : Reg) (nn : Byte) (s : State) : Result := .next (s.advance.skipWhen (decide (s.getV x = nn)))

/-- R105. -/
def execSneImm (x : Reg) (nn : Byte) (s : State) : Result := .next (s.advance.skipWhen (decide (s.getV x ≠ nn)))

/-- R106. -/
def execSeReg (x y : Reg) (s : State) : Result := .next (s.advance.skipWhen (decide (s.getV x = s.getV y)))

/-- R107. -/
def execSneReg (x y : Reg) (s : State) : Result := .next (s.advance.skipWhen (decide (s.getV x ≠ s.getV y)))

end Sys2Proof.Machine
end

