-- ==== Sys2Proof/Machine/Display.lean ====
section
/-! DEFINITION. The two instructions that change the framebuffer (43_display.md). -/

namespace Sys2Proof.Machine

/-- R175. -/
def execCls (s : State) : Result := .next (s.advance.setFb clearedFramebuffer)

/-- R176, and R177 for n = 0: no byte is read, no cell is touched, VF is 0. -/
def execDrw (x y : Reg) (n : Nat) (s : State) : Result :=
  guardRange s.base n (encode (.drw x y n)) s
    ((s.advance.setFb (draw s.fb (s.getV x) (s.getV y) (s.spriteBytes n)).1).setV vf
      (flagByte (draw s.fb (s.getV x) (s.getV y) (s.spriteBytes n)).2))

end Sys2Proof.Machine
end

