-- ==== Sys2Proof/Machine/IndexMemory.lean ====
section
/-! DEFINITION. The index register and memory transfers (42_index_memory.md). I is changed by ANNN and FX1E only. -/

namespace Sys2Proof.Machine

/-- R150. -/
def execLdI (nnn : Addr12) (s : State) : Result := .next (s.advance.setIndex (zextNNN nnn))

/-- R151: I keeps all 16 bits of the sum, then the flag. -/
def execAddIVx (x : Reg) (s : State) : Result :=
  .next ((s.advance.setIndex (addIndex s.index (s.getV x))).setV vf (indexFlag s.index (s.getV x)))

/-- R152. -/
def execLdBVx (x : Reg) (s : State) : Result :=
  guardRange s.base 3 (encode (.ldBVx x)) s (s.advance.setMem (s.mem.writeBytes s.base (bcdDigits (s.getV x))))

/-- R153. -/
def execLdMemVx (x : Reg) (s : State) : Result :=
  guardRange s.base (x.val + 1) (encode (.ldMemVx x)) s (s.advance.setMem (s.mem.writeBytes s.base (s.regsUpTo x)))

/-- R154. -/
def execLdVxMem (x : Reg) (s : State) : Result :=
  guardRange s.base (x.val + 1) (encode (.ldVxMem x)) s
    { s.advance with v := loadRegs s.v 0 (s.mem.readBytes s.base (x.val + 1)) }

end Sys2Proof.Machine
end

