-- ==== Sys2Proof/Machine/TimerInput.lean ====
section
/-! DEFINITION. The delay timer and the key input (44_timer_input.md). -/

namespace Sys2Proof.Machine

/-- R190. -/
def execSkp (x : Reg) (s : State) : Result := .next (s.advance.skipWhen (keyMatches s.lastKey (s.getV x)))

/-- R191: the complement of R190. -/
def execSknp (x : Reg) (s : State) : Result := .next (s.advance.skipWhen (!keyMatches s.lastKey (s.getV x)))

/-- R192. -/
def execLdVxDT (x : Reg) (s : State) : Result := .next (s.advance.setV x s.dt)

/-- R193. -/
def execLdDTVx (x : Reg) (s : State) : Result := .next (s.advance.setDt (s.getV x))

/-- R196: the wait begins; PC is already past the instruction. -/
def execLdVxK (x : Reg) (s : State) : Result := .next (s.advance.setRun (.waitKey x))

end Sys2Proof.Machine
end

