-- ==== Sys2Proof/Machine/Events.lean ====
section
/-! DEFINITION. The four input events (R41) and what each does in each run status (R43). -/

namespace Sys2Proof.Machine

/-- The opcode at PC, big-endian (R53, R71). -/
def fetchOpcode (s : State) : Word := opcodeOf (s.mem.read s.pc.toNat) (s.mem.read (s.pc.toNat + 1))

/-- Fetch, decode and execute one instruction; the errors in the order of R216. -/
def fetchExecute (s : State) : Result :=
  match checkRange s.pc.toNat 2 with
  | some a => .next (raise .outOfBoundsAddress none (some a) s)
  | none =>
    match decode (fetchOpcode s) with
    | .ok i => exec i s
    | .error _ => .next (raise .unknownOpcode (some (fetchOpcode s)) none s)

/-- `InstrTick` (R43): an instruction in Running, nothing in WaitKey and Halted (R198, R218). -/
def instrTick (s : State) : Result :=
  match s.run with
  | .running => fetchExecute s
  | .waitKey _ => .next s
  | .halted _ => .next s

/-- `TimerTick` (R43): DT moves toward 0 in Running (R194), nothing in WaitKey and Halted (R198, R218). -/
def timerTick (s : State) : Result :=
  match s.run with
  | .running => .next (s.setDt (if s.dt = 0 then s.dt else s.dt - 1))
  | .waitKey _ => .next s
  | .halted _ => .next s

/-- `KeyEvent(k)` (R43): completes a wait (R197), is dropped in Running (R198, D15) and in Halted (R218). -/
def keyEvent (k : Key) (s : State) : Result :=
  match s.run with
  | .running => .next s
  | .waitKey x => .next ((s.setV x (keyByte k)).setRun .running)
  | .halted _ => .next s

/-- `Reset(rom, low)` in any run status (R240); a ROM over 3584 bytes has no transition (R242). -/
def resetEvent (rom : List Byte) (low : Vector Byte 512) (s : State) : Result :=
  if rom.length ≤ Config.maxRom then .next (s.afterReset rom low) else .refused (.romTooLong rom.length)

/-- One event, one atomic transition (R39). The inputs of an InstrTick are read where an instruction uses them, by
`State.lastKey` and `State.rand`. -/
def applyEvent (e : Event) (s : State) : Result :=
  match e with
  | .reset rom low => resetEvent rom low s
  | .instrTick _ _ => instrTick s
  | .timerTick => timerTick s
  | .keyEvent k => keyEvent k s

/-- The event the environment presents next: the oldest of its list, and an InstrTick with free inputs when the list
is empty (log 1). -/
def State.nextEvent (s : State) : Event :=
  match s.events with
  | e :: _ => e
  | [] => .instrTick (Config.freeLastKey s.draws) (Config.freeRand s.draws)

/-- The event is over: it leaves the list, and the counter of the free values moves on. -/
def State.consume (s : State) : State := { s with events := s.events.tail, draws := s.draws + 1 }

/-- Take the next event. -/
def stepEvent (s : State) : Result :=
  match applyEvent s.nextEvent s with
  | .next t => .next t.consume
  | .fault r => .fault r
  | .refused r => .refused r

/-- Whether an event is an InstrTick. -/
def Event.isInstrTick : Event → Bool
  | .instrTick _ _ => true
  | .reset _ _ => false
  | .timerTick => false
  | .keyEvent _ => false

/-- A fetch address both of whose bytes exist; 0x200 in place of one that has none. -/
def State.placeAddress (s : State) : Word := if s.pc.toNat ≤ 0xFFE then s.pc else Config.pcReset

/-- `s` with an opcode stored where the next step fetches, the core Running there, and an InstrTick next (log 8). -/
def State.placeOpcode (s : State) (w : Word) : State :=
  { s with
    pc := s.placeAddress
    mem := s.mem.writeBytes s.placeAddress.toNat (bytesOfOpcode w)
    run := .running
    events := s.events.dropWhile (fun e => !e.isInstrTick) }

end Sys2Proof.Machine
end

