-- ==== Sys2Proof/Machine/Step.lean ====
section
/-! DEFINITION. One step of the machine: one event (R39). -/

namespace Sys2Proof.Machine

/-- One step: the environment's next event. Three outcomes: next, fault, refusal. -/
def step (s : State) : Host.Outcome State Fault Refusal := stepEvent s

/-- `s` with a word of the opcode table stored where `step` fetches its next instruction (log 8). -/
def State.withFetchWord (s : State) (nbits w : Nat) : State := s.placeOpcode (tableOpcode nbits w)

end Sys2Proof.Machine
end

