-- ==== Sys2Proof/Machine/Ports.lean ====
section
/-! DEFINITION. The two read-only ports (R44, R45). They are functions of the state and change nothing. -/

namespace Sys2Proof.Machine

/-- `FBRead(index)`, index 0..2047, row-major (R44, D22). -/
def State.fbRead (s : State) (index : Fin 2048) : Bool :=
  Framebuffer.cell s.fb ⟨index.val / 64, Nat.div_lt_of_lt_mul index.isLt⟩ ⟨index.val % 64, Nat.mod_lt _ (by decide)⟩

/-- What `Snapshot()` returns (R45, D23). -/
structure Snapshot where
  v     : Vector Byte 16
  index : Word
  pc    : Word
  sp    : Fin 17
  stack : Vector Word 16
  dt    : Byte
  run   : RunStatus
  deriving DecidableEq, Repr

/-- `Snapshot()` (R45). -/
def State.snapshot (s : State) : Snapshot :=
  { v := s.v, index := s.index, pc := s.pc, sp := s.sp, stack := s.stack, dt := s.dt, run := s.run }

end Sys2Proof.Machine
end

