-- ==== Sys2Proof/Safety.lean ====
section
/-! DEFINITION. The terms claims use: the list of illegal opcodes, the parts of the state a frame speaks of, what each instruction may write, and
the invariant of the machine. -/

namespace Sys2Proof.Machine

/-- The list of illegal encodings of R77, line by line; the family digit, N and NN are read off the number (R72). -/
abbrev IllegalOpcode (w : Word) : Prop :=
  (w.toNat ≤ 0x0FFF ∧ w ≠ 0x00E0 ∧ w ≠ 0x00EE) ∨
  (w.toNat / 0x1000 = 0x5 ∧ w.toNat % 0x10 ≠ 0) ∨
  (w.toNat / 0x1000 = 0x8 ∧ w.toNat % 0x10 ∈ [0x8, 0x9, 0xA, 0xB, 0xC, 0xD, 0xF]) ∨
  (w.toNat / 0x1000 = 0x9 ∧ w.toNat % 0x10 ≠ 0) ∨
  (0xB000 ≤ w.toNat ∧ w.toNat ≤ 0xBFFF) ∨
  (w.toNat / 0x1000 = 0xE ∧ w.toNat % 0x100 ∉ [0x9E, 0xA1]) ∨
  (w.toNat / 0x1000 = 0xF ∧ w.toNat % 0x100 ∉ [0x07, 0x0A, 0x15, 0x1E, 0x33, 0x55, 0x65])

/-- One smallest piece of the state. -/
inductive Part where
  | reg (x : Reg)
  | index
  | pc
  | sp
  | stackEntry (k : Fin 16)
  | dt
  | cell (row : Fin 32) (col : Fin 64)
  | byte (a : Nat)
  | run
  | events
  | draws
  deriving DecidableEq, Repr

/-- A part holds the same in both states; a byte of memory is compared through the model's read of one byte. -/
def Part.Same (s t : State) : Part → Prop
  | .reg x => t.getV x = s.getV x
  | .index => t.index = s.index
  | .pc => t.pc = s.pc
  | .sp => t.sp = s.sp
  | .stackEntry k => t.stack[k] = s.stack[k]
  | .dt => t.dt = s.dt
  | .cell row col => Framebuffer.cell t.fb row col = Framebuffer.cell s.fb row col
  | .byte a => t.mem.read a = s.mem.read a
  | .run => t.run = s.run
  | .events => t.events = s.events
  | .draws => t.draws = s.draws

/-- The frame: every part outside `W` is unchanged from `s` to `t`. -/
def SameExcept (W : Part → Prop) (s t : State) : Prop := ∀ p, ¬ W p → p.Same s t

/-- The parts beside PC that an instruction may write when it completes: the register table R22, the table of the
other registers R26, the access table R51, R34 for the framebuffer. Addresses are those its meaning stores to. -/
def MayWrite (i : Instr) (s : State) (p : Part) : Prop :=
  match i with
  | .jp _ | .seImm _ _ | .sneImm _ _ | .seReg _ _ | .sneReg _ _ | .skp _ | .sknp _ => False
  | .ldImm x _ | .addImm x _ | .ldReg x _ | .orReg x _ | .andReg x _ | .xorReg x _ | .rnd x _ | .ldVxDT x => p = .reg x
  | .addReg x _ | .subReg x _ | .shr x _ | .subn x _ | .shl x _ => p = .reg x ∨ p = .reg vf
  | .ldVxMem x => ∃ k : Reg, k ≤ x ∧ p = .reg k
  | .ldI _ => p = .index
  | .addIVx _ => p = .index ∨ p = .reg vf
  | .ldDTVx _ => p = .dt
  | .ldVxK _ => p = .run
  | .ret => p = .sp
  | .call _ => p = .sp ∨ ∃ k : Fin 16, k.val = s.sp.val ∧ p = .stackEntry k
  | .cls => ∃ row col, p = .cell row col
  | .drw x y n => p = .reg vf ∨ ∃ r c, r < n ∧ c < 8 ∧ p = .cell (spriteRow (s.getV y) r) (spriteCol (s.getV x) c)
  | .ldBVx _ => ∃ k, k < 3 ∧ p = .byte (s.base + k)
  | .ldMemVx x => ∃ k, k ≤ x.val ∧ p = .byte (s.base + k)

/-- The shape of an error record: addr belongs to OutOfBoundsAddress and lies above 0xFFF; the other kinds carry the
opcode (R210). -/
def ErrorRecord.WellShaped (e : ErrorRecord) : Prop :=
  match e.kind with
  | .unknownOpcode | .stackOverflow | .stackUnderflow => e.opcode.isSome = true ∧ e.addr = none
  | .outOfBoundsAddress => ∃ a, e.addr = some a ∧ 0x1000 ≤ a

/-- The invariant of the machine: memory is canonical and within 0x000..0xFFF; PC ≤ 0x1002 (R24); no stack entry is above
0x1000 (R26); in Halted the record has the shape of R210 and names the fetch address PC still holds (R215). -/
structure Inv (s : State) : Prop where
  memory : s.mem.wf = true
  pc : s.pc.toNat ≤ 0x1002
  stack : ∀ k : Fin 16, s.stack[k].toNat ≤ 0x1000
  halted : ∀ e, s.run = .halted e → e.WellShaped ∧ e.pc = s.pc

/-- The step is an InstrTick: it heads the environment's list, or the list is empty (log 1). -/
def State.TicksNext (s : State) : Prop := s.nextEvent.isInstrTick = true

/-- Both states agree on everything the spec gives the core; only the environment's inputs may differ. -/
def SameCore (s t : State) : Prop := SameExcept (fun p => p = .events ∨ p = .draws) s t

end Sys2Proof.Machine
end

