-- ==== Sys2Proof/Certificates/Slice0/Obligations.lean ====
section
/-! DEFINITION. The statements for the provers. `D<n>` names a decision the spec marks as its own
(92_eei_decisions.md); a statement that rests on one says so, and its basis is 'derived'. -/

open Sys2Proof Sys2Proof.Machine

/-! ## Encoding and decoding -/

/-- One word of every family, written out from R73 and R76, decodes to its instruction; a BNNN word to none. -/
def Obligations.SampleWordsDecode : Prop :=
  decodeTableWord 16 0x00EE = some .ret ∧ decodeTableWord 16 0x1ABC = some (.jp 0xABC) ∧
  decodeTableWord 16 0x2345 = some (.call 0x345) ∧ decodeTableWord 16 0x3A7F = some (.seImm 0xA 0x7F) ∧
  decodeTableWord 16 0x4B01 = some (.sneImm 0xB 0x01) ∧ decodeTableWord 16 0x5CD0 = some (.seReg 0xC 0xD) ∧
  decodeTableWord 16 0x6E42 = some (.ldImm 0xE 0x42) ∧ decodeTableWord 16 0x7F10 = some (.addImm 0xF 0x10) ∧
  decodeTableWord 16 0x812E = some (.shl 1 2) ∧ decodeTableWord 16 0x9340 = some (.sneReg 3 4) ∧
  decodeTableWord 16 0xA2F0 = some (.ldI 0x2F0) ∧ decodeTableWord 16 0xC30F = some (.rnd 3 0x0F) ∧
  decodeTableWord 16 0xD12F = some (.drw 1 2 15) ∧ decodeTableWord 16 0xE59E = some (.skp 5) ∧
  decodeTableWord 16 0xF655 = some (.ldMemVx 6) ∧ decodeTableWord 16 0xB200 = none

/-- R73, R74, R76: decoding the encoding of a well-formed instruction gives it back, operands and all. -/
def Obligations.DecodeOfEncodeIsTheInstruction : Prop := ∀ i : Instr, i.wf = true → decode (encode i) = .ok i

/-- R76, R78: no digit is a don't-care, so a decoded opcode is the encoding of its instruction (exact decode: D8). -/
def Obligations.EncodeOfDecodeIsTheOpcode : Prop := ∀ (w : Word) (i : Instr), decode w = .ok i → encode i = w ∧ i.wf = true

/-- R75, R77: the opcodes that are no instruction are exactly the listed ones: a listed opcode is rejected and the decoder
names it, and every other opcode decodes (D8). -/
def Obligations.IllegalOpcodesAreTheListedOnes : Prop :=
  ∀ w : Word, (IllegalOpcode w → decode w = .error (.unknownOpcode w)) ∧ (¬ IllegalOpcode w → ∃ i, decode w = .ok i)

/-! ## The tick: fetch, decode, execute -/

/-- R53, R71, R76: in Running, an InstrTick fetches the big-endian word at PC and runs the instruction it decodes to; the
step adds only that the event leaves the environment's list and the counter of the free values moves on (logs 1, 2).
The instruction sees the inputs of that tick. -/
def Obligations.StepRunsTheDecodedInstruction : Prop :=
  ∀ (s : State) (w : Word) (i : Instr), s.run = .running → s.TicksNext → s.pc.toNat ≤ 0xFFE →
    w.toNat = 256 * (s.mem.read s.pc.toNat).toNat + (s.mem.read (s.pc.toNat + 1)).toNat → decode w = .ok i →
    step s = (match exec i s with
      | .next t => .next { t with events := s.events.tail, draws := s.draws + 1 }
      | .fault r => .fault r
      | .refused r => .refused r) ∧
    (∀ k r rest, s.events = .instrTick k r :: rest → s.lastKey = k ∧ s.rand = r)

/-- R211: an opcode that decodes to nothing halts with the raw opcode and its fetch address; nothing else changes. -/
def Obligations.UnknownOpcodeHaltsWithTheRawOpcode : Prop :=
  ∀ (s : State) (w : Word), s.run = .running → s.TicksNext → s.pc.toNat ≤ 0xFFE →
    w.toNat = 256 * (s.mem.read s.pc.toNat).toNat + (s.mem.read (s.pc.toNat + 1)).toNat → (∀ i, decode w ≠ .ok i) →
    ∃ t, step s = .next t ∧
      t.run = .halted { kind := .unknownOpcode, opcode := some w, pc := s.pc, addr := none } ∧ t.run.errorCode = 1 ∧
      SameExcept (fun p => p = .run ∨ p = .events ∨ p = .draws) s t

/-- R71, R214 (a), R216: a fetch that reaches above 0xFFF halts before any decode, with no opcode (precision, record and
priority: D10, D11, D12). -/
def Obligations.FetchAboveMemoryHalts : Prop :=
  ∀ s : State, s.run = .running → s.TicksNext → 0xFFE < s.pc.toNat →
    ∃ t, step s = .next t ∧
      t.run = .halted { kind := .outOfBoundsAddress, opcode := none, pc := s.pc,
                        addr := some (if s.pc.toNat = 0xFFF then 0x1000 else s.pc.toNat) } ∧
      SameExcept (fun p => p = .run ∨ p = .events ∨ p = .draws) s t

/-- R221: every instruction can run at any time. That one that raises an error (RET at SP = 0, CALL at SP = 16, an access
above 0xFFF) answers a next state too, and not a fault, is the model's reading: log 10, DEDUCED from R215 (the spec's
decision D10) and R43. -/
def Obligations.EveryInstructionAnswersANextState : Prop := ∀ (i : Instr) (s : State), ∃ t, exec i s = .next t

/-- R22, R26, R34, R51: an instruction changes PC and the parts the tables name for it, or it raises an error and changes
RUN alone (precise faults: D10). -/
def Obligations.ExecChangesOnlyTheListedParts : Prop :=
  ∀ (i : Instr) (s t : State), exec i s = .next t →
    SameExcept (fun p => p = .pc ∨ MayWrite i s p) s t ∨
    ((∃ e, t.run = .halted e ∧ e.pc = s.pc) ∧ SameExcept (fun p => p = .run) s t)

/-- R210, R214, R216: the errors an instruction can raise, each with its cause and its record (D10, D11). -/
def Obligations.ErrorsOfTheInstructions : Prop :=
  ∀ (i : Instr) (s t : State) (e : ErrorRecord), exec i s = .next t → s.run = .running → t.run = .halted e →
    e.opcode = some (encode i) ∧ e.pc = s.pc ∧ SameExcept (fun p => p = .run) s t ∧
    ((i = .ret ∧ s.sp.val = 0 ∧ e.kind = .stackUnderflow ∧ e.addr = none) ∨
     ((∃ nnn, i = .call nnn) ∧ s.sp.val = 16 ∧ e.kind = .stackOverflow ∧ e.addr = none) ∨
     (((∃ x y n, i = .drw x y n ∧ 0 < n ∧ 0xFFF < s.base + n - 1) ∨ (∃ x, i = .ldBVx x ∧ 0xFFF < s.base + 2) ∨
       (∃ x : Reg, (i = .ldMemVx x ∨ i = .ldVxMem x) ∧ 0xFFF < s.base + x.val)) ∧
      e.kind = .outOfBoundsAddress ∧ e.addr = some (max s.base 0x1000)))

/-- R155, R214 (b) to (d): an access that would reach above 0xFFF halts with nothing written and reports the lowest
out-of-range address (D10, D11). -/
def Obligations.AccessAboveMemoryHalts : Prop :=
  ∀ (i : Instr) (s : State),
    ((∃ x y n, i = .drw x y n ∧ 0 < n ∧ 0xFFF < s.base + n - 1) ∨ (∃ x, i = .ldBVx x ∧ 0xFFF < s.base + 2) ∨
     (∃ x : Reg, (i = .ldMemVx x ∨ i = .ldVxMem x) ∧ 0xFFF < s.base + x.val)) →
    ∃ t, exec i s = .next t ∧
      t.run = .halted { kind := .outOfBoundsAddress, opcode := some (encode i), pc := s.pc,
                        addr := some (max s.base 0x1000) } ∧
      SameExcept (fun p => p = .run) s t

/-! ## Control flow -/

/-- R102: PC <- NNN, zero-extended; any target, odd or 0xFFF, is taken without a check. -/
def Obligations.JumpSetsPcToTheAddress : Prop :=
  ∀ (nnn : Addr12) (s : State), ∃ t, exec (.jp nnn) s = .next t ∧ t.pc.toNat = nnn.toNat ∧
    SameExcept (fun p => p = .pc) s t

/-- R103, R212: one entry, the post-fetch PC, is pushed and PC <- NNN; with SP = 16 StackOverflow and no other effect. -/
def Obligations.CallPushesThePostFetchPc : Prop :=
  ∀ (nnn : Addr12) (s : State),
    (∀ k : Fin 16, k.val = s.sp.val → ∃ t, exec (.call nnn) s = .next t ∧ t.pc.toNat = nnn.toNat ∧
      t.sp.val = s.sp.val + 1 ∧ t.stack[k] = s.pc + 2 ∧
      SameExcept (fun p => p = .pc ∨ p = .sp ∨ p = .stackEntry k) s t) ∧
    (s.sp.val = 16 → ∃ t, exec (.call nnn) s = .next t ∧
      t.run = .halted { kind := .stackOverflow, opcode := some (encode (.call nnn)), pc := s.pc, addr := none } ∧
      t.run.errorCode = 2 ∧ SameExcept (fun p => p = .run) s t)

/-- R101, R213: PC <- the top entry, which keeps its value (D21); with SP = 0 StackUnderflow and no other effect (D10). -/
def Obligations.ReturnPopsTheTopEntry : Prop :=
  ∀ s : State,
    (∀ k : Fin 16, k.val + 1 = s.sp.val → ∃ t, exec .ret s = .next t ∧ t.pc = s.stack[k] ∧ t.sp.val = k.val ∧
      SameExcept (fun p => p = .pc ∨ p = .sp) s t) ∧
    (s.sp.val = 0 → ∃ t, exec .ret s = .next t ∧
      t.run = .halted { kind := .stackUnderflow, opcode := some 0x00EE, pc := s.pc, addr := none } ∧
      t.run.errorCode = 3 ∧ SameExcept (fun p => p = .run) s t)

/-- R23, R28, R29, R101, R103: a call followed by a return comes back to the instruction after the call; of the rest
only the popped stack entry differs (D21). -/
def Obligations.CallThenReturnComesBack : Prop :=
  ∀ (nnn : Addr12) (s : State) (k : Fin 16), k.val = s.sp.val →
    ∃ t u, exec (.call nnn) s = .next t ∧ exec .ret t = .next u ∧ u.pc = s.pc + 2 ∧
      SameExcept (fun p => p = .pc ∨ p = .stackEntry k) s u

/-- R104 to R107: a skip taken leaves PC at the fetch address + 4, one not taken at + 2; nothing else changes. -/
def Obligations.SkipsCompareRegisters : Prop :=
  ∀ (x y : Reg) (nn : Byte) (s : State),
    (∃ t, exec (.seImm x nn) s = .next t ∧ t.pc = (if s.getV x = nn then s.pc + 4 else s.pc + 2) ∧
      SameExcept (fun p => p = .pc) s t) ∧
    (∃ t, exec (.sneImm x nn) s = .next t ∧ t.pc = (if s.getV x = nn then s.pc + 2 else s.pc + 4) ∧
      SameExcept (fun p => p = .pc) s t) ∧
    (∃ t, exec (.seReg x y) s = .next t ∧ t.pc = (if s.getV x = s.getV y then s.pc + 4 else s.pc + 2) ∧
      SameExcept (fun p => p = .pc) s t) ∧
    (∃ t, exec (.sneReg x y) s = .next t ∧ t.pc = (if s.getV x = s.getV y then s.pc + 2 else s.pc + 4) ∧
      SameExcept (fun p => p = .pc) s t)

/-! ## Register arithmetic -/

/-- R120, R122: V[X] <- NN and V[X] <- V[Y]. -/
def Obligations.LoadsSetTheRegister : Prop :=
  ∀ (x y : Reg) (nn : Byte) (s : State),
    (∃ t, exec (.ldImm x nn) s = .next t ∧ t.getV x = nn ∧ t.pc = s.pc + 2 ∧
      SameExcept (fun p => p = .pc ∨ p = .reg x) s t) ∧
    (∃ t, exec (.ldReg x y) s = .next t ∧ t.getV x = s.getV y ∧ t.pc = s.pc + 2 ∧
      SameExcept (fun p => p = .pc ∨ p = .reg x) s t)

/-- R121: the sum mod 256 and no flag: VF changes only as the destination. -/
def Obligations.AddImmediateWrapsWithoutFlag : Prop :=
  ∀ (x : Reg) (nn : Byte) (s : State), ∃ t, exec (.addImm x nn) s = .next t ∧
    (t.getV x).toNat = ((s.getV x).toNat + nn.toNat) % 256 ∧ t.pc = s.pc + 2 ∧
    SameExcept (fun p => p = .pc ∨ p = .reg x) s t

/-- R123, R124, R125: bit by bit; VF is not written unless X = F. -/
def Obligations.LogicIsBitwiseAndKeepsVF : Prop :=
  ∀ (x y : Reg) (s : State),
    (∃ t, exec (.orReg x y) s = .next t ∧ t.pc = s.pc + 2 ∧
      (∀ k < 8, (t.getV x).getLsbD k = ((s.getV x).getLsbD k || (s.getV y).getLsbD k)) ∧
      SameExcept (fun p => p = .pc ∨ p = .reg x) s t) ∧
    (∃ t, exec (.andReg x y) s = .next t ∧ t.pc = s.pc + 2 ∧
      (∀ k < 8, (t.getV x).getLsbD k = ((s.getV x).getLsbD k && (s.getV y).getLsbD k)) ∧
      SameExcept (fun p => p = .pc ∨ p = .reg x) s t) ∧
    (∃ t, exec (.xorReg x y) s = .next t ∧ t.pc = s.pc + 2 ∧
      (∀ k < 8, (t.getV x).getLsbD k = ((s.getV x).getLsbD k != (s.getV y).getLsbD k)) ∧
      SameExcept (fun p => p = .pc ∨ p = .reg x) s t)

/-- R126, R133, R134: the sum mod 256, then VF is the 8-bit carry; with X = F the carry stays (write order: D6). -/
def Obligations.AddRegistersSetsCarry : Prop :=
  ∀ (x y : Reg) (s : State), ∃ t, exec (.addReg x y) s = .next t ∧
    (x ≠ vf → (t.getV x).toNat = ((s.getV x).toNat + (s.getV y).toNat) % 256) ∧
    (t.getV vf).toNat = (if (s.getV x).toNat + (s.getV y).toNat > 255 then 1 else 0) ∧ t.pc = s.pc + 2 ∧
    SameExcept (fun p => p = .pc ∨ p = .reg x ∨ p = .reg vf) s t

/-- R127, R129, R133, R134: the difference mod 256, then VF = 0 iff there was a borrow, none on equality; with X = F
the flag stays (write order: D6). -/
def Obligations.SubtractSetsNotBorrow : Prop :=
  ∀ (x y : Reg) (s : State),
    (∃ t, exec (.subReg x y) s = .next t ∧
      (x ≠ vf → (t.getV x).toNat = (256 + (s.getV x).toNat - (s.getV y).toNat) % 256) ∧
      (t.getV vf).toNat = (if (s.getV y).toNat > (s.getV x).toNat then 0 else 1) ∧ t.pc = s.pc + 2 ∧
      SameExcept (fun p => p = .pc ∨ p = .reg x ∨ p = .reg vf) s t) ∧
    (∃ t, exec (.subn x y) s = .next t ∧
      (x ≠ vf → (t.getV x).toNat = (256 + (s.getV y).toNat - (s.getV x).toNat) % 256) ∧
      (t.getV vf).toNat = (if (s.getV x).toNat > (s.getV y).toNat then 0 else 1) ∧ t.pc = s.pc + 2 ∧
      SameExcept (fun p => p = .pc ∨ p = .reg x ∨ p = .reg vf) s t)

/-- R128, R130, R133, R134: VF is the bit shifted out, V[X] the shifted value, whatever Y; with X = F the shifted value
stays (write order: D6). -/
def Obligations.ShiftsMoveTheLostBitToVF : Prop :=
  ∀ (x y : Reg) (s : State),
    (∃ t, exec (.shr x y) s = .next t ∧ (t.getV x).toNat = (s.getV x).toNat / 2 ∧
      (x ≠ vf → (t.getV vf).toNat = (s.getV x).toNat % 2) ∧ t.pc = s.pc + 2 ∧
      SameExcept (fun p => p = .pc ∨ p = .reg x ∨ p = .reg vf) s t) ∧
    (∃ t, exec (.shl x y) s = .next t ∧ (t.getV x).toNat = 2 * (s.getV x).toNat % 256 ∧
      (x ≠ vf → (t.getV vf).toNat = (s.getV x).toNat / 128) ∧ t.pc = s.pc + 2 ∧
      SameExcept (fun p => p = .pc ∨ p = .reg x ∨ p = .reg vf) s t)

/-- R131: V[X] <- rand AND NN, rand being the random byte of this tick, any byte (D18; log 2). -/
def Obligations.RandomIsMasked : Prop :=
  ∀ (x : Reg) (nn : Byte) (s : State), ∃ t, exec (.rnd x nn) s = .next t ∧ t.pc = s.pc + 2 ∧
    (∀ k < 8, (t.getV x).getLsbD k = (s.rand.getLsbD k && nn.getLsbD k)) ∧
    SameExcept (fun p => p = .pc ∨ p = .reg x) s t

/-! ## Index register and memory -/

/-- R150: I <- NNN, zero-extended. -/
def Obligations.LoadIndexSetsTheAddress : Prop :=
  ∀ (nnn : Addr12) (s : State), ∃ t, exec (.ldI nnn) s = .next t ∧ t.index.toNat = nnn.toNat ∧ t.pc = s.pc + 2 ∧
    SameExcept (fun p => p = .pc ∨ p = .index) s t

/-- R151: I keeps 16 bits of the sum (D7), and VF says whether the exact sum is above 0xFFF, written last (D6). -/
def Obligations.AddToIndexFlagsAboveMemory : Prop :=
  ∀ (x : Reg) (s : State), ∃ t, exec (.addIVx x) s = .next t ∧
    t.index.toNat = (s.index.toNat + (s.getV x).toNat) % 65536 ∧
    (t.getV vf).toNat = (if s.index.toNat + (s.getV x).toNat > 0xFFF then 1 else 0) ∧ t.pc = s.pc + 2 ∧
    SameExcept (fun p => p = .pc ∨ p = .index ∨ p = .reg vf) s t

/-- R152: the decimal digits, hundreds first, at I, I+1, I+2. Canonical memory is a part of Inv. The bound is R155's
(D10, D11). -/
def Obligations.BcdStoresTheDigits : Prop :=
  ∀ (x : Reg) (s : State), s.mem.wf = true → s.base + 2 ≤ 0xFFF → ∃ t, exec (.ldBVx x) s = .next t ∧
    (t.mem.read s.base).toNat = (s.getV x).toNat / 100 ∧
    (t.mem.read (s.base + 1)).toNat = (s.getV x).toNat / 10 % 10 ∧
    (t.mem.read (s.base + 2)).toNat = (s.getV x).toNat % 10 ∧ t.pc = s.pc + 2 ∧
    SameExcept (fun p => p = .pc ∨ ∃ a, s.base ≤ a ∧ a < s.base + 3 ∧ p = .byte a) s t

/-- R153: V[0]..V[X] at I..I+X, I unchanged. The bound is R155's (D10, D11). -/
def Obligations.StoreRegistersFillsMemory : Prop :=
  ∀ (x : Reg) (s : State), s.mem.wf = true → s.base + x.val ≤ 0xFFF → ∃ t, exec (.ldMemVx x) s = .next t ∧
    (∀ k : Reg, k ≤ x → t.mem.read (s.base + k.val) = s.getV k) ∧ t.pc = s.pc + 2 ∧
    SameExcept (fun p => p = .pc ∨ ∃ a, s.base ≤ a ∧ a ≤ s.base + x.val ∧ p = .byte a) s t

/-- R154: V[0]..V[X] from I..I+X; V[X+1..15], I and memory unchanged. The bound is R155's (D10, D11). -/
def Obligations.LoadRegistersReadsMemory : Prop :=
  ∀ (x : Reg) (s : State), s.base + x.val ≤ 0xFFF → ∃ t, exec (.ldVxMem x) s = .next t ∧
    (∀ k : Reg, k ≤ x → t.getV k = s.mem.read (s.base + k.val)) ∧ t.pc = s.pc + 2 ∧
    SameExcept (fun p => p = .pc ∨ ∃ k : Reg, k ≤ x ∧ p = .reg k) s t

/-- R156: FX55 then FX65 with the same X and I gives every register and I back. -/
def Obligations.StoreThenLoadRestoresRegisters : Prop :=
  ∀ (x : Reg) (s : State), s.mem.wf = true → s.base + x.val ≤ 0xFFF →
    ∃ t u, exec (.ldMemVx x) s = .next t ∧ exec (.ldVxMem x) t = .next u ∧ u.pc = s.pc + 4 ∧
      SameExcept (fun p => p = .pc ∨ ∃ a, s.base ≤ a ∧ a ≤ s.base + x.val ∧ p = .byte a) s u

/-- R65: the fetch right after an FX55 sees the bytes it stored, even over the next instruction. -/
def Obligations.FetchSeesTheStoreBeforeIt : Prop :=
  ∀ (x : Reg) (s : State) (k k' : Reg), s.mem.wf = true → s.base + x.val ≤ 0xFFF → s.pc.toNat ≤ 0xFFC →
    k'.val = k.val + 1 → k' ≤ x → s.base + k.val = s.pc.toNat + 2 →
    ∃ t, exec (.ldMemVx x) s = .next t ∧ (fetchOpcode t).toNat = 256 * (s.getV k).toNat + (s.getV k').toNat

/-! ## Display -/

/-- R170, R175: every cell 0, and nothing but PC besides. -/
def Obligations.ClearBlanksEveryCell : Prop :=
  ∀ s : State, ∃ t, exec .cls s = .next t ∧ (∀ row col, Framebuffer.cell t.fb row col = false) ∧ t.pc = s.pc + 2 ∧
    SameExcept (fun p => p = .pc ∨ ∃ row col, p = .cell row col) s t

/-- R171, R173: the cells the sprite covers, wrapped on each axis, are XORed with its bits, MSB leftmost; the others keep
their value; the collision is true iff some covered cell was 1 under a source bit 1. -/
def Obligations.DrawXorsTheSprite : Prop :=
  ∀ (fb : Framebuffer) (x y : Byte) (bytes : List Byte), bytes.length ≤ 15 →
    (∀ (r c : Nat) (row : Fin 32) (col : Fin 64) (hr : r < bytes.length), c < 8 →
      row.val = (y.toNat + r) % 32 → col.val = (x.toNat + c) % 64 →
      Framebuffer.cell (draw fb x y bytes).1 row col = (Framebuffer.cell fb row col != bytes[r].getLsbD (7 - c))) ∧
    (∀ (row : Fin 32) (col : Fin 64),
      (∀ r c, r < bytes.length → c < 8 → ¬ (row.val = (y.toNat + r) % 32 ∧ col.val = (x.toNat + c) % 64)) →
      Framebuffer.cell (draw fb x y bytes).1 row col = Framebuffer.cell fb row col) ∧
    ((draw fb x y bytes).2 = true ↔ ∃ (r c : Nat) (row : Fin 32) (col : Fin 64) (hr : r < bytes.length), c < 8 ∧
      row.val = (y.toNat + r) % 32 ∧ col.val = (x.toNat + c) % 64 ∧
      Framebuffer.cell fb row col = true ∧ bytes[r].getLsbD (7 - c) = true)

/-- R178: drawing the same sprite twice restores the framebuffer, and the second draw collides iff the first lit at
least one cell. -/
def Obligations.DrawTwiceRestoresTheFramebuffer : Prop :=
  ∀ (fb : Framebuffer) (x y : Byte) (bytes : List Byte), bytes.length ≤ 15 →
    (draw (draw fb x y bytes).1 x y bytes).1 = fb ∧
    ((draw (draw fb x y bytes).1 x y bytes).2 = true ↔
      ∃ row col, Framebuffer.cell fb row col = false ∧ Framebuffer.cell (draw fb x y bytes).1 row col = true)

/-- R176, R177: DXYN draws the bytes MEM[I..I+N-1] at the old V[X], V[Y], then VF <- collision; DXY0 reads nothing, draws
nothing and clears VF (D9). Memory and I are unchanged. The bound is R155's (D10, D11). -/
def Obligations.DrawInstructionDrawsFromMemory : Prop :=
  ∀ (x y : Reg) (n : Nat) (s : State), (n = 0 ∨ s.base + n - 1 ≤ 0xFFF) →
    ∃ t, exec (.drw x y n) s = .next t ∧ t.pc = s.pc + 2 ∧
      t.fb = (draw s.fb (s.getV x) (s.getV y) ((List.range n).map fun r => s.mem.read (s.base + r))).1 ∧
      t.getV vf
        = (if (draw s.fb (s.getV x) (s.getV y) ((List.range n).map fun r => s.mem.read (s.base + r))).2 then 1 else 0) ∧
      (n = 0 → t.fb = s.fb ∧ t.getV vf = 0) ∧
      SameExcept (fun p => p = .pc ∨ p = .reg vf ∨ ∃ (r c : Nat) (row : Fin 32) (col : Fin 64), r < n ∧ c < 8 ∧
        row.val = ((s.getV y).toNat + r) % 32 ∧ col.val = ((s.getV x).toNat + c) % 64 ∧ p = .cell row col) s t

/-- R33, R44: the framebuffer read port is row-major (D22). -/
def Obligations.FramebufferPortIsRowMajor : Prop :=
  ∀ (s : State) (row : Fin 32) (col : Fin 64) (index : Fin 2048), index.val = row.val * 64 + col.val →
    s.fbRead index = Framebuffer.cell s.fb row col

/-! ## Timer, keys and the other events -/

/-- R192, R193: FX07 reads DT, FX15 sets it. -/
def Obligations.DelayTimerIsReadAndSet : Prop :=
  ∀ (x : Reg) (s : State),
    (∃ t, exec (.ldVxDT x) s = .next t ∧ t.getV x = s.dt ∧ t.pc = s.pc + 2 ∧
      SameExcept (fun p => p = .pc ∨ p = .reg x) s t) ∧
    (∃ t, exec (.ldDTVx x) s = .next t ∧ t.dt = s.getV x ∧ t.pc = s.pc + 2 ∧
      SameExcept (fun p => p = .pc ∨ p = .dt) s t)

/-- R190, R191: EX9E skips iff the tick's key state is a key whose code is the whole byte V[X] (D29), EXA1 iff not. -/
def Obligations.KeySkipsCompareTheWholeByte : Prop :=
  ∀ (x : Reg) (s : State),
    (∃ t, exec (.skp x) s = .next t ∧
      ((∃ k, s.lastKey = some k ∧ k.val = (s.getV x).toNat) → t.pc = s.pc + 4) ∧
      ((∀ k, s.lastKey = some k → k.val ≠ (s.getV x).toNat) → t.pc = s.pc + 2) ∧
      SameExcept (fun p => p = .pc) s t) ∧
    (∃ t, exec (.sknp x) s = .next t ∧
      ((∃ k, s.lastKey = some k ∧ k.val = (s.getV x).toNat) → t.pc = s.pc + 2) ∧
      ((∀ k, s.lastKey = some k → k.val ≠ (s.getV x).toNat) → t.pc = s.pc + 4) ∧
      SameExcept (fun p => p = .pc) s t)

/-- R196: FX0A enters WaitKey(X) with PC past it, whatever the key state (D15). -/
def Obligations.KeyWaitBegins : Prop :=
  ∀ (x : Reg) (s : State), ∃ t, exec (.ldVxK x) s = .next t ∧ t.run = .waitKey x ∧ t.pc = s.pc + 2 ∧
    SameExcept (fun p => p = .pc ∨ p = .run) s t

/-- R197: KeyEvent(k) in WaitKey(x) gives V[x] <- k and RUN <- Running; PC is not changed. -/
def Obligations.KeyEventCompletesTheWait : Prop :=
  ∀ (k : Key) (x : Reg) (s : State), s.run = .waitKey x → ∃ t, applyEvent (.keyEvent k) s = .next t ∧
    (t.getV x).toNat = k.val ∧ t.run = .running ∧ SameExcept (fun p => p = .reg x ∨ p = .run) s t

/-- R194: TimerTick in Running takes DT one toward 0, never below, and changes nothing else; in WaitKey and Halted it
changes nothing (D13, D14). -/
def Obligations.TimerTickCountsDown : Prop :=
  ∀ s : State, ∃ t, applyEvent .timerTick s = .next t ∧
    t.dt.toNat = (if s.run = .running ∧ 0 < s.dt.toNat then s.dt.toNat - 1 else s.dt.toNat) ∧
    SameExcept (fun p => p = .dt) s t

/-- R43, R198, R218, R226: WaitKey is left only by a KeyEvent or a Reset, Halted only by a Reset; any other event leaves
the core as it was (D13, D14). -/
def Obligations.OnlyNamedEventsLeaveWaitAndHalt : Prop :=
  ∀ s t : State, s.run ≠ .running → step s = .next t →
    SameCore s t ∨ (∃ rom low, s.nextEvent = .reset rom low) ∨
    (∃ x k, s.run = .waitKey x ∧ s.nextEvent = .keyEvent k)

/-- R198: a KeyEvent in Running is dropped (D15). -/
def Obligations.KeyEventInRunningIsDropped : Prop :=
  ∀ (k : Key) (s : State), s.run = .running → applyEvent (.keyEvent k) s = .next s

/-- R40, R41: a step is one event, the oldest the environment lists (the list is the model's: log 1). -/
def Obligations.StepTakesTheOldestEvent : Prop :=
  ∀ (s t : State) (e : Event) (rest : List Event), s.events = e :: rest → applyEvent e s = .next t →
    step s = .next { t with events := rest, draws := s.draws + 1 }

/-- R35, R41, R62: the inputs of a tick reach the core through CXNN, EX9E and EXA1 only (D17, D18). -/
def Obligations.TickInputsReachThreeInstructionsOnly : Prop :=
  ∀ (i : Instr) (s : State) (evs : List Event) (d : Nat),
    (∀ x nn, i ≠ .rnd x nn) → (∀ x, i ≠ .skp x) → (∀ x, i ≠ .sknp x) →
    ∃ t u, exec i s = .next t ∧ exec i { s with events := evs, draws := d } = .next u ∧ SameCore t u

/-! ## Reset and the invariant -/

/-- R46: the state after reset. PC, SP and RUN are the document's; the zeros are the spec's decisions D3, D4, D5
(logs 5, 6, 7). -/
def Obligations.ResetStateHoldsTheResetValues : Prop :=
  State.reset.pc = 0x200 ∧ State.reset.sp.val = 0 ∧ State.reset.run = .running ∧ State.reset.index = 0 ∧
  State.reset.dt = 0 ∧ (∀ x, State.reset.getV x = 0) ∧ (∀ k : Fin 16, State.reset.stack[k] = 0) ∧
  (∀ row col, Framebuffer.cell State.reset.fb row col = false) ∧ (∀ a, State.reset.mem.read a = 0)

/-- R241: the ROM image stands verbatim from 0x200. -/
def Obligations.ResetPlacesTheRomVerbatim : Prop :=
  ∀ (s : State) (rom : List Byte) (low : Vector Byte 512), rom.length ≤ 3584 →
    ∃ t, applyEvent (.reset rom low) s = .next t ∧
      ∀ (k : Nat) (hk : k < rom.length), t.mem.read (0x200 + k) = rom[k]

/-- R240, R46: Reset leaves the reset state from any run status; below the ROM LOW_IMAGE, above it zeros (D3, D4, D5, D16). -/
def Obligations.ResetEventLeavesTheResetState : Prop :=
  ∀ (s : State) (rom : List Byte) (low : Vector Byte 512), rom.length ≤ 3584 →
    ∃ t, applyEvent (.reset rom low) s = .next t ∧
      SameExcept (fun p => p = .events ∨ p = .draws ∨ ∃ a, p = .byte a) State.reset t ∧
      (∀ a : Fin 512, t.mem.read a.val = low[a]) ∧ (∀ a, 0x200 + rom.length ≤ a → t.mem.read a = 0)

/-- R242: a ROM over 3584 bytes is refused: the event has no transition (D25). -/
def Obligations.OversizeRomHasNoTransition : Prop :=
  ∀ (s : State) (rom : List Byte) (low : Vector Byte 512), 3584 < rom.length →
    applyEvent (.reset rom low) s = .refused (.romTooLong rom.length)

/-- The invariant holds at reset. -/
def Obligations.ResetMeetsTheInvariant : Prop := Inv State.reset

/-- R24, R26, R55, R210, R215: canonical memory inside 0x000..0xFFF, PC ≤ 0x1002, stack entries ≤ 0x1000, and in Halted a
well-shaped record naming PC: every step keeps it, whatever the event. -/
def Obligations.StepKeepsTheInvariant : Prop := ∀ s t : State, Inv s → step s = .next t → Inv t
end

