-- ==== Sys2Proof/Laws/Memory.lean ====
section
/-! SUPPORT. The laws of memory: a read after a write, and the canonical form that every memory operation keeps. -/

namespace Sys2Proof.Machine.Memory

theorem wfFrom_cons {lo k : Nat} {b : Byte} {rest : Memory} :
    wfFrom lo ((k, b) :: rest) = true ↔ lo ≤ k ∧ k < Config.memSize ∧ b ≠ 0 ∧ wfFrom (k + 1) rest = true := by
  simp only [wfFrom, Bool.and_eq_true, decide_eq_true_eq, and_assoc]

theorem read_below {m : Memory} {lo a : Nat} (h : wfFrom lo m = true) (ha : a < lo) : m.read a = 0 := by
  induction m generalizing lo with
  | nil => rfl
  | cons c rest ih =>
    obtain ⟨k, b⟩ := c
    obtain ⟨hk, -, -, hr⟩ := wfFrom_cons.1 h
    have : k ≠ a := by omega
    simp [read, this, ih hr (by omega)]

theorem wfFrom_mono {m : Memory} {lo lo' : Nat} (h : wfFrom lo m = true) (hl : lo' ≤ lo) : wfFrom lo' m = true := by
  cases m with
  | nil => rfl
  | cons c rest =>
    obtain ⟨k, b⟩ := c
    obtain ⟨hk, hm, hb, hr⟩ := wfFrom_cons.1 h
    exact wfFrom_cons.2 ⟨by omega, hm, hb, hr⟩

theorem write_wfFrom {m : Memory} {lo a : Nat} (b : Byte) (h : wfFrom lo m = true) (hl : lo ≤ a)
    (ha : a < Config.memSize) : wfFrom lo (m.write a b) = true := by
  induction m generalizing lo with
  | nil =>
    unfold write
    split
    · rfl
    · rename_i hb
      exact wfFrom_cons.2 ⟨hl, ha, hb, rfl⟩
  | cons c rest ih =>
    obtain ⟨k, c⟩ := c
    obtain ⟨hk, hm, hc, hr⟩ := wfFrom_cons.1 h
    unfold write
    split
    · split
      · exact h
      · rename_i hak hb
        exact wfFrom_cons.2 ⟨hl, ha, hb, wfFrom_cons.2 ⟨hak, hm, hc, hr⟩⟩
    · split
      · split
        · exact wfFrom_mono hr (by omega)
        · rename_i hak hb
          subst hak
          exact wfFrom_cons.2 ⟨hl, ha, hb, hr⟩
      · exact wfFrom_cons.2 ⟨hk, hm, hc, ih hr (by omega)⟩

/-- A write inside the address space keeps the canonical form. -/
theorem write_wf {m : Memory} {a : Nat} (b : Byte) (h : m.wf = true) (ha : a < Config.memSize) :
    (m.write a b).wf = true := write_wfFrom b h (Nat.zero_le a) ha

theorem read_write_from {m : Memory} {lo : Nat} (h : wfFrom lo m = true) (a : Nat) (b : Byte) (a' : Nat) :
    (m.write a b).read a' = if a' = a then b else m.read a' := by
  induction m generalizing lo with
  | nil =>
    by_cases he : a' = a
    · subst he
      unfold write
      split
      · rename_i hb
        simp [read, hb]
      · simp [read]
    · unfold write
      split <;> simp [read, Ne.symm he]
  | cons c rest ih =>
    obtain ⟨k, c⟩ := c
    obtain ⟨hk, hm, hc, hr⟩ := wfFrom_cons.1 h
    unfold write
    split
    · rename_i hak
      have h0 : read rest a = 0 := read_below hr (by omega)
      have hka : k ≠ a := by omega
      split
      · rename_i hb
        by_cases he : a' = a
        · subst he; simp [read, hka, h0, hb]
        · simp [he]
      · by_cases he : a' = a
        · subst he; simp [read]
        · simp [read, he, Ne.symm he]
    · split
      · rename_i hak
        subst hak
        have h0 : read rest a = 0 := read_below hr (by omega)
        split
        · rename_i hb
          by_cases he : a' = a
          · subst he; simp [h0, hb]
          · simp [read, he, Ne.symm he]
        · by_cases he : a' = a
          · subst he; simp [read]
          · simp [read, he, Ne.symm he]
      · rename_i hna hne
        by_cases he : k = a'
        · subst he
          have : ¬ k = a := fun e => hne e.symm
          simp [read, this]
        · simp [read, he, ih hr]

/-- A read after a write, in a canonical memory. -/
theorem read_write {m : Memory} (h : m.wf = true) (a : Nat) (b : Byte) (a' : Nat) :
    (m.write a b).read a' = if a' = a then b else m.read a' := read_write_from h a b a'

/-- A write leaves every other address alone, in any memory. -/
theorem read_write_of_ne (m : Memory) {a a' : Nat} (b : Byte) (h : a' ≠ a) : (m.write a b).read a' = m.read a' := by
  induction m with
  | nil =>
    unfold write
    split <;> simp [read, Ne.symm h]
  | cons c rest ih =>
    obtain ⟨k, c⟩ := c
    unfold write
    split
    · split <;> simp [read, Ne.symm h]
    · split
      · rename_i hak
        subst hak
        split <;> simp [read, Ne.symm h]
      · simp [read, ih]

/-- Storing bytes inside the address space keeps the canonical form. -/
theorem writeBytes_wf {m : Memory} {base : Nat} {bs : List Byte} (h : m.wf = true)
    (hb : base + bs.length ≤ Config.memSize) : (m.writeBytes base bs).wf = true := by
  induction bs generalizing m base with
  | nil => exact h
  | cons b rest ih =>
    simp only [List.length_cons] at hb
    exact ih (write_wf b h (by omega)) (by omega)

/-- Storing bytes leaves every address outside them alone, in any memory. -/
theorem read_writeBytes_outside (m : Memory) {base a : Nat} {bs : List Byte} (h : a < base ∨ base + bs.length ≤ a) :
    (m.writeBytes base bs).read a = m.read a := by
  induction bs generalizing m base with
  | nil => rfl
  | cons b rest ih =>
    simp only [List.length_cons] at h
    unfold writeBytes
    rw [ih _ (by omega), read_write_of_ne _ _ (by omega)]

/-- The k-th stored byte reads back, in a canonical memory. -/
theorem read_writeBytes_inside {m : Memory} {base k : Nat} {bs : List Byte} (h : m.wf = true)
    (hb : base + bs.length ≤ Config.memSize) (hk : k < bs.length) : (m.writeBytes base bs).read (base + k) = bs[k] := by
  induction bs generalizing m base k with
  | nil => simp at hk
  | cons b rest ih =>
    simp only [List.length_cons] at hb hk
    unfold writeBytes
    cases k with
    | zero =>
      rw [read_writeBytes_outside _ (by omega), read_write h]
      simp
    | succ k =>
      have := ih (m := m.write base b) (base := base + 1) (k := k) (write_wf b h (by omega)) (by omega) (by omega)
      simpa [Nat.add_assoc, Nat.add_comm 1 k] using this

@[simp] theorem length_readBytes (m : Memory) (base n : Nat) : (m.readBytes base n).length = n := by
  induction n generalizing base with
  | zero => rfl
  | succ n ih => simp [readBytes, ih]

theorem getElem_readBytes (m : Memory) (base n k : Nat) (h : k < (m.readBytes base n).length) :
    (m.readBytes base n)[k] = m.read (base + k) := by
  induction n generalizing base k with
  | zero => simp [readBytes] at h
  | succ n ih =>
    cases k with
    | zero => rfl
    | succ k =>
      simp only [readBytes, List.getElem_cons_succ]
      rw [ih, Nat.add_assoc, Nat.add_comm 1 k]

/-- Bytes laid out as cells are canonical from their base on. -/
theorem ofBytes_wfFrom {a lo : Nat} {bs : List Byte} (hl : lo ≤ a) (h : a + bs.length ≤ Config.memSize) :
    wfFrom lo (ofBytes a bs) = true := by
  induction bs generalizing a lo with
  | nil => rfl
  | cons b rest ih =>
    simp only [List.length_cons] at h
    unfold ofBytes
    split
    · exact ih (by omega) (by omega)
    · rename_i hb
      exact wfFrom_cons.2 ⟨hl, by omega, hb, ih (by omega) (by omega)⟩

theorem read_ofBytes_outside {a a' : Nat} {bs : List Byte} (h : a' < a ∨ a + bs.length ≤ a') :
    (ofBytes a bs).read a' = 0 := by
  induction bs generalizing a with
  | nil => rfl
  | cons b rest ih =>
    simp only [List.length_cons] at h
    unfold ofBytes
    split
    · exact ih (by omega)
    · have : a ≠ a' := by omega
      simp [read, this, ih (a := a + 1) (by omega)]

theorem read_ofBytes_inside {a k : Nat} {bs : List Byte} (h : k < bs.length) : (ofBytes a bs).read (a + k) = bs[k] := by
  induction bs generalizing a k with
  | nil => simp at h
  | cons b rest ih =>
    simp only [List.length_cons] at h
    unfold ofBytes
    cases k with
    | zero =>
      split
      · rename_i hb
        simp [read_ofBytes_outside, hb]
      · simp [read]
    | succ k =>
      have := ih (a := a + 1) (k := k) (by omega)
      rw [Nat.add_assoc, Nat.add_comm 1 k] at this
      have hne : a ≠ a + (k + 1) := by omega
      split
      · simpa using this
      · simpa [read, hne] using this

/-- One canonical memory after another that ends below it. -/
theorem append_wfFrom {m m' : Memory} {lo hi : Nat} (h : wfFrom lo m = true) (h' : wfFrom hi m' = true)
    (hlo : lo ≤ hi) (hb : ∀ c ∈ m, c.1 < hi) : wfFrom lo (m ++ m') = true := by
  induction m generalizing lo with
  | nil => exact wfFrom_mono h' hlo
  | cons c rest ih =>
    obtain ⟨k, b⟩ := c
    obtain ⟨hk, hm, hn, hr⟩ := wfFrom_cons.1 h
    have hlt : k < hi := hb (k, b) (by simp)
    exact wfFrom_cons.2 ⟨hk, hm, hn, ih hr (by omega) (fun c hc => hb c (by simp [hc]))⟩

theorem mem_ofBytes_lt {a : Nat} {bs : List Byte} {c : Host.Cell} (h : c ∈ ofBytes a bs) : c.1 < a + bs.length := by
  induction bs generalizing a with
  | nil => simp [ofBytes] at h
  | cons b rest ih =>
    simp only [List.length_cons]
    unfold ofBytes at h
    split at h
    · have := ih h; omega
    · rcases List.mem_cons.1 h with rfl | h
      · simp
      · have := ih h; omega

/-- The reset memory is canonical. -/
theorem resetMemory_wf {rom : List Byte} (low : Vector Byte 512) (h : rom.length ≤ Config.maxRom) :
    (resetMemory rom low).wf = true := by
  have hl : low.toList.length = 512 := by simp
  refine append_wfFrom (hi := 0x200) (ofBytes_wfFrom (Nat.le_refl 0) ?_) (ofBytes_wfFrom (Nat.le_refl _) ?_) (by decide) ?_
  · rw [hl]; decide
  · simp only [Config.maxRom] at h; simp only [Config.loadAddr, Config.memSize]; omega
  · intro c hc
    have := mem_ofBytes_lt hc
    omega

theorem read_append {m m' : Memory} (a : Nat) (h : m.read a = 0) (hz : ∀ c ∈ m, c.2 ≠ 0) :
    read (m ++ m') a = m'.read a := by
  induction m with
  | nil => rfl
  | cons c rest ih =>
    obtain ⟨k, b⟩ := c
    have hb : b ≠ 0 := hz (k, b) (by simp)
    by_cases he : k = a
    · simp [read, he] at h; exact absurd h hb
    · simp only [read, he, if_false, List.cons_append] at h ⊢
      exact ih h (fun c hc => hz c (by simp [hc]))

end Sys2Proof.Machine.Memory
end

