-- ==== Sys2Proof/Laws/State.lean ====
section
/-! SUPPORT. The update lemmas of State: one per field per update, and the reads of a general register. -/

namespace Sys2Proof.Machine

@[simp] theorem getV_setV_self (s : State) (x : Reg) (b : Byte) : (s.setV x b).getV x = b := by
  simp [State.getV, State.setV]

@[simp] theorem getV_setV_of_ne (s : State) {x y : Reg} (b : Byte) (h : x ≠ y) : (s.setV x b).getV y = s.getV y := by
  have h' : x.val ≠ y.val := fun e => h (Fin.ext e)
  simp [State.getV, State.setV, h']

theorem getV_setV (s : State) (x y : Reg) (b : Byte) : (s.setV x b).getV y = if x = y then b else s.getV y := by
  by_cases h : x = y
  · subst h; simp
  · simp [h]

theorem setV_setV_self (s : State) (x : Reg) (a b : Byte) : (s.setV x a).setV x b = s.setV x b := by
  simp [State.setV]


/-! ## setV -/

@[simp] theorem setV_index (s : State) (x : Reg) (b : Byte) : (s.setV x b).index = s.index := rfl
@[simp] theorem setV_pc (s : State) (x : Reg) (b : Byte) : (s.setV x b).pc = s.pc := rfl
@[simp] theorem setV_sp (s : State) (x : Reg) (b : Byte) : (s.setV x b).sp = s.sp := rfl
@[simp] theorem setV_stack (s : State) (x : Reg) (b : Byte) : (s.setV x b).stack = s.stack := rfl
@[simp] theorem setV_dt (s : State) (x : Reg) (b : Byte) : (s.setV x b).dt = s.dt := rfl
@[simp] theorem setV_fb (s : State) (x : Reg) (b : Byte) : (s.setV x b).fb = s.fb := rfl
@[simp] theorem setV_mem (s : State) (x : Reg) (b : Byte) : (s.setV x b).mem = s.mem := rfl
@[simp] theorem setV_run (s : State) (x : Reg) (b : Byte) : (s.setV x b).run = s.run := rfl
@[simp] theorem setV_events (s : State) (x : Reg) (b : Byte) : (s.setV x b).events = s.events := rfl
@[simp] theorem setV_draws (s : State) (x : Reg) (b : Byte) : (s.setV x b).draws = s.draws := rfl

/-! ## setPc -/

@[simp] theorem setPc_v (s : State) (w : Word) : (s.setPc w).v = s.v := rfl
@[simp] theorem setPc_index (s : State) (w : Word) : (s.setPc w).index = s.index := rfl
@[simp] theorem setPc_pc (s : State) (w : Word) : (s.setPc w).pc = w := rfl
@[simp] theorem setPc_sp (s : State) (w : Word) : (s.setPc w).sp = s.sp := rfl
@[simp] theorem setPc_stack (s : State) (w : Word) : (s.setPc w).stack = s.stack := rfl
@[simp] theorem setPc_dt (s : State) (w : Word) : (s.setPc w).dt = s.dt := rfl
@[simp] theorem setPc_fb (s : State) (w : Word) : (s.setPc w).fb = s.fb := rfl
@[simp] theorem setPc_mem (s : State) (w : Word) : (s.setPc w).mem = s.mem := rfl
@[simp] theorem setPc_run (s : State) (w : Word) : (s.setPc w).run = s.run := rfl
@[simp] theorem setPc_events (s : State) (w : Word) : (s.setPc w).events = s.events := rfl
@[simp] theorem setPc_draws (s : State) (w : Word) : (s.setPc w).draws = s.draws := rfl
@[simp] theorem getV_setPc (s : State) (w : Word) (y : Reg) : (s.setPc w).getV y = s.getV y := rfl

/-! ## setIndex -/

@[simp] theorem setIndex_v (s : State) (w : Word) : (s.setIndex w).v = s.v := rfl
@[simp] theorem setIndex_index (s : State) (w : Word) : (s.setIndex w).index = w := rfl
@[simp] theorem setIndex_pc (s : State) (w : Word) : (s.setIndex w).pc = s.pc := rfl
@[simp] theorem setIndex_sp (s : State) (w : Word) : (s.setIndex w).sp = s.sp := rfl
@[simp] theorem setIndex_stack (s : State) (w : Word) : (s.setIndex w).stack = s.stack := rfl
@[simp] theorem setIndex_dt (s : State) (w : Word) : (s.setIndex w).dt = s.dt := rfl
@[simp] theorem setIndex_fb (s : State) (w : Word) : (s.setIndex w).fb = s.fb := rfl
@[simp] theorem setIndex_mem (s : State) (w : Word) : (s.setIndex w).mem = s.mem := rfl
@[simp] theorem setIndex_run (s : State) (w : Word) : (s.setIndex w).run = s.run := rfl
@[simp] theorem setIndex_events (s : State) (w : Word) : (s.setIndex w).events = s.events := rfl
@[simp] theorem setIndex_draws (s : State) (w : Word) : (s.setIndex w).draws = s.draws := rfl
@[simp] theorem getV_setIndex (s : State) (w : Word) (y : Reg) : (s.setIndex w).getV y = s.getV y := rfl

/-! ## setDt -/

@[simp] theorem setDt_v (s : State) (b : Byte) : (s.setDt b).v = s.v := rfl
@[simp] theorem setDt_index (s : State) (b : Byte) : (s.setDt b).index = s.index := rfl
@[simp] theorem setDt_pc (s : State) (b : Byte) : (s.setDt b).pc = s.pc := rfl
@[simp] theorem setDt_sp (s : State) (b : Byte) : (s.setDt b).sp = s.sp := rfl
@[simp] theorem setDt_stack (s : State) (b : Byte) : (s.setDt b).stack = s.stack := rfl
@[simp] theorem setDt_dt (s : State) (b : Byte) : (s.setDt b).dt = b := rfl
@[simp] theorem setDt_fb (s : State) (b : Byte) : (s.setDt b).fb = s.fb := rfl
@[simp] theorem setDt_mem (s : State) (b : Byte) : (s.setDt b).mem = s.mem := rfl
@[simp] theorem setDt_run (s : State) (b : Byte) : (s.setDt b).run = s.run := rfl
@[simp] theorem setDt_events (s : State) (b : Byte) : (s.setDt b).events = s.events := rfl
@[simp] theorem setDt_draws (s : State) (b : Byte) : (s.setDt b).draws = s.draws := rfl
@[simp] theorem getV_setDt (s : State) (b : Byte) (y : Reg) : (s.setDt b).getV y = s.getV y := rfl

/-! ## setFb -/

@[simp] theorem setFb_v (s : State) (fb : Framebuffer) : (s.setFb fb).v = s.v := rfl
@[simp] theorem setFb_index (s : State) (fb : Framebuffer) : (s.setFb fb).index = s.index := rfl
@[simp] theorem setFb_pc (s : State) (fb : Framebuffer) : (s.setFb fb).pc = s.pc := rfl
@[simp] theorem setFb_sp (s : State) (fb : Framebuffer) : (s.setFb fb).sp = s.sp := rfl
@[simp] theorem setFb_stack (s : State) (fb : Framebuffer) : (s.setFb fb).stack = s.stack := rfl
@[simp] theorem setFb_dt (s : State) (fb : Framebuffer) : (s.setFb fb).dt = s.dt := rfl
@[simp] theorem setFb_fb (s : State) (fb : Framebuffer) : (s.setFb fb).fb = fb := rfl
@[simp] theorem setFb_mem (s : State) (fb : Framebuffer) : (s.setFb fb).mem = s.mem := rfl
@[simp] theorem setFb_run (s : State) (fb : Framebuffer) : (s.setFb fb).run = s.run := rfl
@[simp] theorem setFb_events (s : State) (fb : Framebuffer) : (s.setFb fb).events = s.events := rfl
@[simp] theorem setFb_draws (s : State) (fb : Framebuffer) : (s.setFb fb).draws = s.draws := rfl
@[simp] theorem getV_setFb (s : State) (fb : Framebuffer) (y : Reg) : (s.setFb fb).getV y = s.getV y := rfl

/-! ## setMem -/

@[simp] theorem setMem_v (s : State) (m : Memory) : (s.setMem m).v = s.v := rfl
@[simp] theorem setMem_index (s : State) (m : Memory) : (s.setMem m).index = s.index := rfl
@[simp] theorem setMem_pc (s : State) (m : Memory) : (s.setMem m).pc = s.pc := rfl
@[simp] theorem setMem_sp (s : State) (m : Memory) : (s.setMem m).sp = s.sp := rfl
@[simp] theorem setMem_stack (s : State) (m : Memory) : (s.setMem m).stack = s.stack := rfl
@[simp] theorem setMem_dt (s : State) (m : Memory) : (s.setMem m).dt = s.dt := rfl
@[simp] theorem setMem_fb (s : State) (m : Memory) : (s.setMem m).fb = s.fb := rfl
@[simp] theorem setMem_mem (s : State) (m : Memory) : (s.setMem m).mem = m := rfl
@[simp] theorem setMem_run (s : State) (m : Memory) : (s.setMem m).run = s.run := rfl
@[simp] theorem setMem_events (s : State) (m : Memory) : (s.setMem m).events = s.events := rfl
@[simp] theorem setMem_draws (s : State) (m : Memory) : (s.setMem m).draws = s.draws := rfl
@[simp] theorem getV_setMem (s : State) (m : Memory) (y : Reg) : (s.setMem m).getV y = s.getV y := rfl

/-! ## setRun -/

@[simp] theorem setRun_v (s : State) (r : RunStatus) : (s.setRun r).v = s.v := rfl
@[simp] theorem setRun_index (s : State) (r : RunStatus) : (s.setRun r).index = s.index := rfl
@[simp] theorem setRun_pc (s : State) (r : RunStatus) : (s.setRun r).pc = s.pc := rfl
@[simp] theorem setRun_sp (s : State) (r : RunStatus) : (s.setRun r).sp = s.sp := rfl
@[simp] theorem setRun_stack (s : State) (r : RunStatus) : (s.setRun r).stack = s.stack := rfl
@[simp] theorem setRun_dt (s : State) (r : RunStatus) : (s.setRun r).dt = s.dt := rfl
@[simp] theorem setRun_fb (s : State) (r : RunStatus) : (s.setRun r).fb = s.fb := rfl
@[simp] theorem setRun_mem (s : State) (r : RunStatus) : (s.setRun r).mem = s.mem := rfl
@[simp] theorem setRun_run (s : State) (r : RunStatus) : (s.setRun r).run = r := rfl
@[simp] theorem setRun_events (s : State) (r : RunStatus) : (s.setRun r).events = s.events := rfl
@[simp] theorem setRun_draws (s : State) (r : RunStatus) : (s.setRun r).draws = s.draws := rfl
@[simp] theorem getV_setRun (s : State) (r : RunStatus) (y : Reg) : (s.setRun r).getV y = s.getV y := rfl

/-! ## advance -/

@[simp] theorem advance_v (s : State) : s.advance.v = s.v := rfl
@[simp] theorem advance_index (s : State) : s.advance.index = s.index := rfl
@[simp] theorem advance_pc (s : State) : s.advance.pc = s.pc + 2 := rfl
@[simp] theorem advance_sp (s : State) : s.advance.sp = s.sp := rfl
@[simp] theorem advance_stack (s : State) : s.advance.stack = s.stack := rfl
@[simp] theorem advance_dt (s : State) : s.advance.dt = s.dt := rfl
@[simp] theorem advance_fb (s : State) : s.advance.fb = s.fb := rfl
@[simp] theorem advance_mem (s : State) : s.advance.mem = s.mem := rfl
@[simp] theorem advance_run (s : State) : s.advance.run = s.run := rfl
@[simp] theorem advance_events (s : State) : s.advance.events = s.events := rfl
@[simp] theorem advance_draws (s : State) : s.advance.draws = s.draws := rfl
@[simp] theorem getV_advance (s : State) (y : Reg) : s.advance.getV y = s.getV y := rfl

/-! ## skipWhen -/

@[simp] theorem skipWhen_v (s : State) (c : Bool) : (s.skipWhen c).v = s.v := rfl
@[simp] theorem skipWhen_index (s : State) (c : Bool) : (s.skipWhen c).index = s.index := rfl
@[simp] theorem skipWhen_pc (s : State) (c : Bool) : (s.skipWhen c).pc = if c then s.pc + 2 else s.pc := rfl
@[simp] theorem skipWhen_sp (s : State) (c : Bool) : (s.skipWhen c).sp = s.sp := rfl
@[simp] theorem skipWhen_stack (s : State) (c : Bool) : (s.skipWhen c).stack = s.stack := rfl
@[simp] theorem skipWhen_dt (s : State) (c : Bool) : (s.skipWhen c).dt = s.dt := rfl
@[simp] theorem skipWhen_fb (s : State) (c : Bool) : (s.skipWhen c).fb = s.fb := rfl
@[simp] theorem skipWhen_mem (s : State) (c : Bool) : (s.skipWhen c).mem = s.mem := rfl
@[simp] theorem skipWhen_run (s : State) (c : Bool) : (s.skipWhen c).run = s.run := rfl
@[simp] theorem skipWhen_events (s : State) (c : Bool) : (s.skipWhen c).events = s.events := rfl
@[simp] theorem skipWhen_draws (s : State) (c : Bool) : (s.skipWhen c).draws = s.draws := rfl
@[simp] theorem getV_skipWhen (s : State) (c : Bool) (y : Reg) : (s.skipWhen c).getV y = s.getV y := rfl

/-! ## consume -/

@[simp] theorem consume_v (s : State) : s.consume.v = s.v := rfl
@[simp] theorem consume_index (s : State) : s.consume.index = s.index := rfl
@[simp] theorem consume_pc (s : State) : s.consume.pc = s.pc := rfl
@[simp] theorem consume_sp (s : State) : s.consume.sp = s.sp := rfl
@[simp] theorem consume_stack (s : State) : s.consume.stack = s.stack := rfl
@[simp] theorem consume_dt (s : State) : s.consume.dt = s.dt := rfl
@[simp] theorem consume_fb (s : State) : s.consume.fb = s.fb := rfl
@[simp] theorem consume_mem (s : State) : s.consume.mem = s.mem := rfl
@[simp] theorem consume_run (s : State) : s.consume.run = s.run := rfl
@[simp] theorem consume_events (s : State) : s.consume.events = s.events.tail := rfl
@[simp] theorem consume_draws (s : State) : s.consume.draws = s.draws + 1 := rfl
@[simp] theorem getV_consume (s : State) (y : Reg) : s.consume.getV y = s.getV y := rfl

/-! ## raise -/

@[simp] theorem raise_v (k : ErrorKind) (o : Option Word) (a : Option Nat) (s : State) : (raise k o a s).v = s.v := rfl
@[simp] theorem raise_index (k : ErrorKind) (o : Option Word) (a : Option Nat) (s : State) : (raise k o a s).index = s.index := rfl
@[simp] theorem raise_pc (k : ErrorKind) (o : Option Word) (a : Option Nat) (s : State) : (raise k o a s).pc = s.pc := rfl
@[simp] theorem raise_sp (k : ErrorKind) (o : Option Word) (a : Option Nat) (s : State) : (raise k o a s).sp = s.sp := rfl
@[simp] theorem raise_stack (k : ErrorKind) (o : Option Word) (a : Option Nat) (s : State) : (raise k o a s).stack = s.stack := rfl
@[simp] theorem raise_dt (k : ErrorKind) (o : Option Word) (a : Option Nat) (s : State) : (raise k o a s).dt = s.dt := rfl
@[simp] theorem raise_fb (k : ErrorKind) (o : Option Word) (a : Option Nat) (s : State) : (raise k o a s).fb = s.fb := rfl
@[simp] theorem raise_mem (k : ErrorKind) (o : Option Word) (a : Option Nat) (s : State) : (raise k o a s).mem = s.mem := rfl
@[simp] theorem raise_run (k : ErrorKind) (o : Option Word) (a : Option Nat) (s : State) : (raise k o a s).run = .halted { kind := k, opcode := o, pc := s.pc, addr := a } := rfl
@[simp] theorem raise_events (k : ErrorKind) (o : Option Word) (a : Option Nat) (s : State) : (raise k o a s).events = s.events := rfl
@[simp] theorem raise_draws (k : ErrorKind) (o : Option Word) (a : Option Nat) (s : State) : (raise k o a s).draws = s.draws := rfl
@[simp] theorem getV_raise (k : ErrorKind) (o : Option Word) (a : Option Nat) (s : State) (y : Reg) : (raise k o a s).getV y = s.getV y := rfl

end Sys2Proof.Machine
end

