-- ==== Sys2Proof/Laws/Ops.lean ====
section
/-! SUPPORT. One lemma per shared operation: everything it can answer. -/

namespace Sys2Proof.Machine

/-! ## Range check (R155) -/

theorem checkRange_eq_none_iff (base count : Nat) : checkRange base count = none ↔ count = 0 ∨ base + count ≤ 0x1000 := by
  unfold checkRange Config.memSize
  split <;> simp <;> omega

theorem checkRange_eq_some_iff (base count a : Nat) :
    checkRange base count = some a ↔ 0 < count ∧ 0x1000 < base + count ∧ a = max base 0x1000 := by
  unfold checkRange Config.memSize
  split
  · simp [eq_comm]; omega
  · simp; omega

theorem guardRange_of_inside {base count : Nat} (w : Word) (s t : State) (h : count = 0 ∨ base + count ≤ 0x1000) :
    guardRange base count w s t = .next t := by
  simp [guardRange, (checkRange_eq_none_iff base count).2 h]

theorem guardRange_of_outside {base count : Nat} (w : Word) (s t : State) (h : 0 < count) (h' : 0x1000 < base + count) :
    guardRange base count w s t = .next (raise .outOfBoundsAddress (some w) (some (max base 0x1000)) s) := by
  simp [guardRange, (checkRange_eq_some_iff base count _).2 ⟨h, h', rfl⟩]

/-- A guarded access has two outcomes. -/
theorem guardRange_cases (base count : Nat) (w : Word) (s t : State) :
    ((count = 0 ∨ base + count ≤ 0x1000) ∧ guardRange base count w s t = .next t) ∨
    (0 < count ∧ 0x1000 < base + count ∧
      guardRange base count w s t = .next (raise .outOfBoundsAddress (some w) (some (max base 0x1000)) s)) := by
  by_cases h : count = 0 ∨ base + count ≤ 0x1000
  · exact .inl ⟨h, guardRange_of_inside w s t h⟩
  · have h1 : 0 < count := by omega
    have h2 : 0x1000 < base + count := by omega
    exact .inr ⟨h1, h2, guardRange_of_outside w s t h1 h2⟩

/-! ## Call stack (R29) -/

/-- Push with room: the new top, one more entry, nothing else. -/
theorem push_of_lt (s : State) (w : Word) (h : s.sp.val < 16) :
    ∃ t, s.push w = some t ∧ t.sp.val = s.sp.val + 1 ∧ t.stack = s.stack.set s.sp.val w ∧
      t = { s with stack := t.stack, sp := t.sp } := by
  refine ⟨_, by rw [State.push, dif_pos h], rfl, rfl, rfl⟩

theorem push_of_full (s : State) (w : Word) (h : s.sp.val = 16) : s.push w = none := by
  have : ¬ s.sp.val < 16 := by omega
  simp [State.push, this]

/-- Pop with an entry: the top, one entry fewer, nothing else. -/
theorem pop_of_pos (s : State) (h : 0 < s.sp.val) :
    ∃ t, ∃ k : Fin 16, k.val + 1 = s.sp.val ∧ s.pop = some (s.stack[k], t) ∧ t.sp.val = k.val ∧
      t = { s with sp := t.sp } := by
  have hk : s.sp.val - 1 < 16 := by omega
  have h0 : ¬ s.sp.val = 0 := by omega
  refine ⟨_, ⟨s.sp.val - 1, hk⟩, ?_, by rw [State.pop, if_neg h0]; rfl, rfl, rfl⟩
  show s.sp.val - 1 + 1 = s.sp.val
  omega

theorem pop_of_empty (s : State) (h : s.sp.val = 0) : s.pop = none := by simp [State.pop, h]

/-! ## Register transfers (R153, R154) -/

@[simp] theorem length_regsUpTo (s : State) (x : Reg) : (s.regsUpTo x).length = x.val + 1 := by
  simp [State.regsUpTo]

theorem getElem_regsUpTo (s : State) (x k : Reg) (h : k.val < (s.regsUpTo x).length) : (s.regsUpTo x)[k.val] = s.getV k := by
  simp [State.regsUpTo, State.getV]

/-- Loading bytes from register `k` on writes exactly the registers they reach. -/
theorem getElem_loadRegs (v : Vector Byte 16) (k : Nat) (bs : List Byte) (r : Reg) :
    (loadRegs v k bs)[r] = if h : k ≤ r.val ∧ r.val < k + bs.length then bs[r.val - k]'(by omega) else v[r] := by
  induction bs generalizing v k with
  | nil =>
    have : ¬ (k ≤ r.val ∧ r.val < k + ([] : List Byte).length) := by simp
    rw [dif_neg this]; rfl
  | cons b rest ih =>
    unfold loadRegs
    rw [ih]
    by_cases h1 : k + 1 ≤ r.val ∧ r.val < k + 1 + rest.length
    · have h2 : k ≤ r.val ∧ r.val < k + (b :: rest).length := by simp only [List.length_cons]; omega
      rw [dif_pos h1, dif_pos h2]
      have h3 : r.val - k = r.val - (k + 1) + 1 := by omega
      simp [h3]
    · rw [dif_neg h1]
      by_cases h2 : r.val = k
      · have h3 : k ≤ r.val ∧ r.val < k + (b :: rest).length := by simp only [List.length_cons]; omega
        rw [dif_pos h3]
        simp [h2]
      · have h3 : ¬ (k ≤ r.val ∧ r.val < k + (b :: rest).length) := by simp only [List.length_cons]; omega
        rw [dif_neg h3]
        have h4 : ¬ k = r.val := fun e => h2 e.symm
        simp [h4]

/-! ## Reset (R240) -/

theorem ofBytes_zeros (a n : Nat) : Memory.ofBytes a (List.replicate n 0) = [] := by
  induction n generalizing a with
  | zero => rfl
  | succ n ih =>
    rw [List.replicate_succ, Memory.ofBytes, if_pos rfl]
    exact ih (a + 1)

/-- `State.reset` is what Reset(empty, all 0x00) leaves of itself. -/
theorem afterReset_default : State.reset.afterReset [] Config.defaultLowImage = State.reset := by
  have h : resetMemory [] Config.defaultLowImage = [] := by
    rw [resetMemory, Config.defaultLowImage, Vector.toList_replicate, ofBytes_zeros]
    rfl
  rw [State.afterReset, h]
  rfl

/-! ## Framebuffer (R33) -/

theorem cell_setCell (fb : Framebuffer) (row r : Fin 32) (col c : Fin 64) (b : Bool) :
    Framebuffer.cell (Framebuffer.setCell fb row col b) r c
      = if r = row ∧ c = col then b else Framebuffer.cell fb r c := by
  unfold Framebuffer.cell Framebuffer.setCell
  by_cases hr : r = row
  · subst hr
    by_cases hc : c = col
    · subst hc; simp
    · have : ¬ col.val = c.val := fun e => hc (Fin.ext e.symm)
      simp [hc, this]
  · have : ¬ row.val = r.val := fun e => hr (Fin.ext e.symm)
    simp [hr, this]

theorem framebuffer_ext {a b : Framebuffer} (h : ∀ r c, Framebuffer.cell a r c = Framebuffer.cell b r c) : a = b := by
  apply Vector.ext
  intro i hi
  apply Vector.ext
  intro j hj
  exact h ⟨i, hi⟩ ⟨j, hj⟩

@[simp] theorem cell_cleared (r : Fin 32) (c : Fin 64) : Framebuffer.cell clearedFramebuffer r c = false := by
  simp [Framebuffer.cell, clearedFramebuffer, blankFramebuffer]

/-- One turn of the draw loop: one cell is XORed, and the collision flag gathers old AND source. -/
theorem drawCell_cell (x y : Byte) (n : Nat) (b : Byte) (p : Framebuffer × Bool) (c : Nat) (r : Fin 32) (k : Fin 64) :
    Framebuffer.cell (drawCell x y n b p c).1 r k
      = (Framebuffer.cell p.1 r k ^^ (decide (r = spriteRow y n ∧ k = spriteCol x c) && spriteBit b c)) := by
  unfold drawCell
  rw [cell_setCell]
  split
  · rename_i h
    simp [h]
  · rename_i h
    simp [h]

theorem drawCell_collision (x y : Byte) (n : Nat) (b : Byte) (p : Framebuffer × Bool) (c : Nat) :
    (drawCell x y n b p c).2 = (p.2 || (Framebuffer.cell p.1 (spriteRow y n) (spriteCol x c) && spriteBit b c)) := rfl

end Sys2Proof.Machine
end

