-- ==== Sys2Proof/Laws/PerInstr.lean ====
section
/-! SUPPORT. The fixed digits of every encoding: one lemma per instruction. -/

namespace Sys2Proof.Laws.FixedDigits

/-- The family digit of an instruction's pattern, and the fixed low digits as `(modulus, value)` (R73, the opcode table). -/
def pattern : Instr → Nat × Nat × Nat
  | .cls => (0x0, 0x1000, 0x0E0)
  | .ret => (0x0, 0x1000, 0x0EE)
  | .jp _ => (0x1, 1, 0)
  | .call _ => (0x2, 1, 0)
  | .seImm _ _ => (0x3, 1, 0)
  | .sneImm _ _ => (0x4, 1, 0)
  | .seReg _ _ => (0x5, 0x10, 0x0)
  | .ldImm _ _ => (0x6, 1, 0)
  | .addImm _ _ => (0x7, 1, 0)
  | .ldReg _ _ => (0x8, 0x10, 0x0)
  | .orReg _ _ => (0x8, 0x10, 0x1)
  | .andReg _ _ => (0x8, 0x10, 0x2)
  | .xorReg _ _ => (0x8, 0x10, 0x3)
  | .addReg _ _ => (0x8, 0x10, 0x4)
  | .subReg _ _ => (0x8, 0x10, 0x5)
  | .shr _ _ => (0x8, 0x10, 0x6)
  | .subn _ _ => (0x8, 0x10, 0x7)
  | .shl _ _ => (0x8, 0x10, 0xE)
  | .sneReg _ _ => (0x9, 0x10, 0x0)
  | .ldI _ => (0xA, 1, 0)
  | .rnd _ _ => (0xC, 1, 0)
  | .drw _ _ _ => (0xD, 1, 0)
  | .skp _ => (0xE, 0x100, 0x9E)
  | .sknp _ => (0xE, 0x100, 0xA1)
  | .ldVxDT _ => (0xF, 0x100, 0x07)
  | .ldVxK _ => (0xF, 0x100, 0x0A)
  | .ldDTVx _ => (0xF, 0x100, 0x15)
  | .addIVx _ => (0xF, 0x100, 0x1E)
  | .ldBVx _ => (0xF, 0x100, 0x33)
  | .ldMemVx _ => (0xF, 0x100, 0x55)
  | .ldVxMem _ => (0xF, 0x100, 0x65)

/-- The encoding of a well-formed instruction has its pattern's fixed digits. -/
def Statement (i : Instr) : Prop :=
  i.wf = true → (encode i).toNat / 0x1000 = (pattern i).1 ∧ (encode i).toNat % (pattern i).2.1 = (pattern i).2.2

theorem toNat_digits (f x y n : Nat) (hf : f < 16) (hx : x < 16) (hy : y < 16) (hn : n < 16) :
    (digits f x y n).toNat = f * 0x1000 + x * 0x100 + y * 0x10 + n := by
  rw [digits, BitVec.toNat_ofNat, Nat.mod_eq_of_lt (by omega)]

theorem toNat_digitsNNN (f : Nat) (nnn : Addr12) (hf : f < 16) : (digitsNNN f nnn).toNat = f * 0x1000 + nnn.toNat := by
  have := nnn.isLt
  rw [digitsNNN, BitVec.toNat_ofNat, Nat.mod_eq_of_lt (by omega)]

theorem toNat_digitsXNN (f : Nat) (x : Reg) (nn : Byte) (hf : f < 16) :
    (digitsXNN f x nn).toNat = f * 0x1000 + x.val * 0x100 + nn.toNat := by
  have := nn.isLt
  have := x.isLt
  rw [digitsXNN, BitVec.toNat_ofNat, Nat.mod_eq_of_lt (by omega)]

theorem fixed_xy (f n : Nat) (x y : Reg) (hf : f < 16) (hn : n < 16) :
    (digits f x y n).toNat / 0x1000 = f ∧ (digits f x y n).toNat % 0x10 = n := by
  have := x.isLt
  have := y.isLt
  rw [toNat_digits f x y n hf x.isLt y.isLt hn]
  omega

theorem fixed_nnn (f : Nat) (nnn : Addr12) (hf : f < 16) :
    (digitsNNN f nnn).toNat / 0x1000 = f ∧ (digitsNNN f nnn).toNat % 1 = 0 := by
  have := nnn.isLt
  rw [toNat_digitsNNN f nnn hf]
  omega

theorem fixed_xnn (f : Nat) (x : Reg) (nn : Byte) (hf : f < 16) :
    (digitsXNN f x nn).toNat / 0x1000 = f ∧ (digitsXNN f x nn).toNat % 1 = 0 := by
  have := nn.isLt
  have := x.isLt
  rw [toNat_digitsXNN f x nn hf]
  omega

theorem fixed_x (f : Nat) (x : Reg) (nn : Byte) (hf : f < 16) :
    (digitsXNN f x nn).toNat / 0x1000 = f ∧ (digitsXNN f x nn).toNat % 0x100 = nn.toNat := by
  have := nn.isLt
  have := x.isLt
  rw [toNat_digitsXNN f x nn hf]
  omega

theorem cls : Statement .cls := fun _ => by decide
theorem ret : Statement .ret := fun _ => by decide
theorem jp (nnn : Addr12) : Statement (.jp nnn) := fun _ => fixed_nnn _ nnn (by decide)
theorem call (nnn : Addr12) : Statement (.call nnn) := fun _ => fixed_nnn _ nnn (by decide)
theorem seImm (x : Reg) (nn : Byte) : Statement (.seImm x nn) := fun _ => fixed_xnn _ x nn (by decide)
theorem sneImm (x : Reg) (nn : Byte) : Statement (.sneImm x nn) := fun _ => fixed_xnn _ x nn (by decide)
theorem seReg (x y : Reg) : Statement (.seReg x y) := fun _ => fixed_xy _ _ x y (by decide) (by decide)
theorem ldImm (x : Reg) (nn : Byte) : Statement (.ldImm x nn) := fun _ => fixed_xnn _ x nn (by decide)
theorem addImm (x : Reg) (nn : Byte) : Statement (.addImm x nn) := fun _ => fixed_xnn _ x nn (by decide)
theorem ldReg (x y : Reg) : Statement (.ldReg x y) := fun _ => fixed_xy _ _ x y (by decide) (by decide)
theorem orReg (x y : Reg) : Statement (.orReg x y) := fun _ => fixed_xy _ _ x y (by decide) (by decide)
theorem andReg (x y : Reg) : Statement (.andReg x y) := fun _ => fixed_xy _ _ x y (by decide) (by decide)
theorem xorReg (x y : Reg) : Statement (.xorReg x y) := fun _ => fixed_xy _ _ x y (by decide) (by decide)
theorem addReg (x y : Reg) : Statement (.addReg x y) := fun _ => fixed_xy _ _ x y (by decide) (by decide)
theorem subReg (x y : Reg) : Statement (.subReg x y) := fun _ => fixed_xy _ _ x y (by decide) (by decide)
theorem shr (x y : Reg) : Statement (.shr x y) := fun _ => fixed_xy _ _ x y (by decide) (by decide)
theorem subn (x y : Reg) : Statement (.subn x y) := fun _ => fixed_xy _ _ x y (by decide) (by decide)
theorem shl (x y : Reg) : Statement (.shl x y) := fun _ => fixed_xy _ _ x y (by decide) (by decide)
theorem sneReg (x y : Reg) : Statement (.sneReg x y) := fun _ => fixed_xy _ _ x y (by decide) (by decide)
theorem ldI (nnn : Addr12) : Statement (.ldI nnn) := fun _ => fixed_nnn _ nnn (by decide)
theorem rnd (x : Reg) (nn : Byte) : Statement (.rnd x nn) := fun _ => fixed_xnn _ x nn (by decide)
theorem drw (x y : Reg) (n : Nat) : Statement (.drw x y n) := fun h => by
  have hn : n < 16 := by simpa [Instr.wf] using h
  have := x.isLt
  have := y.isLt
  have e := toNat_digits 0xD x y n (by decide) x.isLt y.isLt hn
  show (digits 0xD x y n).toNat / 0x1000 = 0xD ∧ (digits 0xD x y n).toNat % 1 = 0
  omega
theorem skp (x : Reg) : Statement (.skp x) := fun _ => fixed_x _ x _ (by decide)
theorem sknp (x : Reg) : Statement (.sknp x) := fun _ => fixed_x _ x _ (by decide)
theorem ldVxDT (x : Reg) : Statement (.ldVxDT x) := fun _ => fixed_x _ x _ (by decide)
theorem ldVxK (x : Reg) : Statement (.ldVxK x) := fun _ => fixed_x _ x _ (by decide)
theorem ldDTVx (x : Reg) : Statement (.ldDTVx x) := fun _ => fixed_x _ x _ (by decide)
theorem addIVx (x : Reg) : Statement (.addIVx x) := fun _ => fixed_x _ x _ (by decide)
theorem ldBVx (x : Reg) : Statement (.ldBVx x) := fun _ => fixed_x _ x _ (by decide)
theorem ldMemVx (x : Reg) : Statement (.ldMemVx x) := fun _ => fixed_x _ x _ (by decide)
theorem ldVxMem (x : Reg) : Statement (.ldVxMem x) := fun _ => fixed_x _ x _ (by decide)

end Sys2Proof.Laws.FixedDigits
end

