-- ==== Sys2Proof/Tests/Slice0.lean ====
section
/-! SUPPORT. The model's own tests: decoding of written-out words, one step per instruction on vectors of
95_test_vectors.md (their ids stand in the names), the WellFormed smoke, and a witness for every obligation with hypotheses. -/

namespace Sys2Proof.Tests

open Sys2Proof.Machine

/-- What a step answers, seen through one view of the next state. -/
def look {α : Type} (f : State → α) : Result → Option α
  | .next t => some (f t)
  | .fault _ => none
  | .refused _ => none

/-- The reset state changed by `edit`, with a word where the next step fetches. -/
def boot (w : Nat) (edit : State → State) : State := (edit State.reset).withFetchWord 16 w

/-- V registers set from a list. -/
def regs (l : List (Reg × Byte)) (s : State) : State := l.foldl (fun s p => s.setV p.1 p.2) s

/-- I set, and bytes at I. -/
def atIndex (i : Word) (bs : List Byte) (s : State) : State := { s with index := i, mem := s.mem.writeBytes i.toNat bs }

/-- The inputs of the coming tick. -/
def inputs (k : Option Key) (r : Byte) (s : State) : State := { s with events := [.instrTick k r] }

/-- The view of an arithmetic test: V[x], VF, PC. -/
def xfp (x : Reg) (s : State) : Byte × Byte × Word := (s.getV x, s.getV vf, s.pc)

/-! ## WellFormed -/

theorem test_wf_refuses_count_16 : Instr.wf (.drw 0 1 16) = false := by decide
theorem test_wf_accepts_count_15 : Instr.wf (.drw 0 1 15) = true := by decide

/-! ## Decoding: every constructor by a word written out from R73 and R76 -/

theorem test_decode_family_0 : decodeTableWord 16 0x00E0 = some .cls ∧ decodeTableWord 16 0x00EE = some .ret := by decide
theorem test_decode_jumps : decodeTableWord 16 0b0001101010111100 = some (.jp 0xABC) ∧
    decodeTableWord 16 0b0010001101000101 = some (.call 0x345) := by decide
theorem test_decode_skips : decodeTableWord 16 0b0011101001111111 = some (.seImm 0xA 0x7F) ∧
    decodeTableWord 16 0b0100101100000001 = some (.sneImm 0xB 0x01) ∧
    decodeTableWord 16 0b0101110011010000 = some (.seReg 0xC 0xD) ∧
    decodeTableWord 16 0b1001001101000000 = some (.sneReg 3 4) := by decide
theorem test_decode_immediates : decodeTableWord 16 0b0110111001000010 = some (.ldImm 0xE 0x42) ∧
    decodeTableWord 16 0b0111111100010000 = some (.addImm 0xF 0x10) ∧
    decodeTableWord 16 0b1010001011110000 = some (.ldI 0x2F0) ∧
    decodeTableWord 16 0b1100001100001111 = some (.rnd 3 0x0F) := by decide
theorem test_decode_family_8 : decodeTableWord 16 0x8120 = some (.ldReg 1 2) ∧ decodeTableWord 16 0x8121 = some (.orReg 1 2) ∧
    decodeTableWord 16 0x8122 = some (.andReg 1 2) ∧ decodeTableWord 16 0x8123 = some (.xorReg 1 2) ∧
    decodeTableWord 16 0x8124 = some (.addReg 1 2) ∧ decodeTableWord 16 0x8125 = some (.subReg 1 2) ∧
    decodeTableWord 16 0x8126 = some (.shr 1 2) ∧ decodeTableWord 16 0x8127 = some (.subn 1 2) ∧
    decodeTableWord 16 0x812E = some (.shl 1 2) := by decide
theorem test_decode_draw_and_keys : decodeTableWord 16 0b1101000100101111 = some (.drw 1 2 15) ∧
    decodeTableWord 16 0b1110010110011110 = some (.skp 5) ∧ decodeTableWord 16 0b1110010110100001 = some (.sknp 5) := by decide
theorem test_decode_family_F : decodeTableWord 16 0xF607 = some (.ldVxDT 6) ∧ decodeTableWord 16 0xF60A = some (.ldVxK 6) ∧
    decodeTableWord 16 0xF615 = some (.ldDTVx 6) ∧ decodeTableWord 16 0xF61E = some (.addIVx 6) ∧
    decodeTableWord 16 0xF633 = some (.ldBVx 6) ∧ decodeTableWord 16 0xF655 = some (.ldMemVx 6) ∧
    decodeTableWord 16 0xF665 = some (.ldVxMem 6) := by decide
/-- E1 to E14: the illegal words of the vectors. -/
theorem test_decode_illegal : ∀ w ∈ [0x0000, 0x0123, 0x00E1, 0x00FE, 0x5121, 0x8128, 0x812F, 0x9121, 0xB200, 0xE09F, 0xF018,
    0xF029, 0xF075, 0xFFFF], decodeTableWord 16 w = none := by decide
theorem test_decode_bytes_in_order : decodeBytes [0x61, 0x2A, 0xFF] = .ok (.ldImm 1 0x2A, [0xFF]) := by decide
theorem test_decode_truncated : decodeBytes [0x61] = .error .truncated := by decide
theorem test_encode_call : encode (.call 0x345) = 0x2345 := by decide

/-! ## One step per instruction -/

theorem test_DR1_cls : look (fun t => (Framebuffer.cell t.fb 5 7, Framebuffer.cell t.fb 31 63, t.getV vf, t.pc))
    (step (boot 0x00E0 fun s => regs [(vf, 1)] (s.setFb (Framebuffer.setCell (Framebuffer.setCell s.fb 5 7 true) 31 63 true))))
    = some (false, false, 0x01, 0x202) := by decide
theorem test_CF7_ret : look (fun t => (t.pc, t.sp, t.stack[0]))
    (step (boot 0x00EE fun s => { s with pc := 0x30A, sp := 1, stack := s.stack.set 0 0x204 })) = some (0x204, 0, 0x204) := by decide
theorem test_CF8_ret_underflow : look (fun t => (t.run, t.pc)) (step (boot 0x00EE id))
    = some (.halted ⟨.stackUnderflow, some 0x00EE, 0x200, none⟩, 0x200) := by decide
theorem test_CF1_jp : look State.pc (step (boot 0x1ABC id)) = some 0xABC := by decide
theorem test_E15_jp_at_last_fetch_address : look State.pc (step (boot 0x1200 (·.setPc 0xFFE))) = some 0x200 := by decide
theorem test_CF5_call_16th : look (fun t => (t.pc, t.sp, t.stack[15])) (step (boot 0x2300 fun s => { s with sp := 15 }))
    = some (0x300, 16, 0x202) := by decide
theorem test_CF6_call_overflow : look (fun t => (t.run, t.pc, t.sp)) (step (boot 0x2300 fun s => { s with sp := 16 }))
    = some (.halted ⟨.stackOverflow, some 0x2300, 0x200, none⟩, 0x200, 16) := by decide
theorem test_CF11_se_taken : look State.pc (step (boot 0x3342 (regs [(3, 0x42)]))) = some 0x204 := by decide
theorem test_CF12_se_not_taken : look State.pc (step (boot 0x3342 (regs [(3, 0x41)]))) = some 0x202 := by decide
theorem test_CF14_sne_taken : look State.pc (step (boot 0x4342 (regs [(3, 0x41)]))) = some 0x204 := by decide
theorem test_CF15_sne_not_taken : look State.pc (step (boot 0x4342 (regs [(3, 0x42)]))) = some 0x202 := by decide
theorem test_CF16_se_reg_taken : look State.pc (step (boot 0x5120 (regs [(1, 7), (2, 7)]))) = some 0x204 := by decide
theorem test_CF17_se_reg_not_taken : look State.pc (step (boot 0x5120 (regs [(1, 7), (2, 8)]))) = some 0x202 := by decide
theorem test_CF19_sne_reg_taken : look State.pc (step (boot 0x9120 (regs [(1, 7), (2, 8)]))) = some 0x204 := by decide
theorem test_CF20_sne_reg_same : look State.pc (step (boot 0x9330 id)) = some 0x202 := by decide
theorem test_A2_ld_VF : look (xfp 0) (step (boot 0x6FAA id)) = some (0, 0xAA, 0x202) := by decide
theorem test_A3_add_imm_wraps : look (xfp 0) (step (boot 0x7001 (regs [(0, 0xFF), (vf, 0x55)]))) = some (0, 0x55, 0x202) := by decide
theorem test_A6_ld_reg : look (xfp 0) (step (boot 0x8010 (regs [(1, 0x3C)]))) = some (0x3C, 0, 0x202) := by decide
theorem test_A7_or : look (xfp 0) (step (boot 0x8011 (regs [(0, 0xF0), (1, 0x0F), (vf, 0x55)]))) = some (0xFF, 0x55, 0x202) := by
  decide
theorem test_A8_and : look (xfp 0) (step (boot 0x8012 (regs [(0, 0xF0), (1, 0x3C), (vf, 0x55)]))) = some (0x30, 0x55, 0x202) := by
  decide
theorem test_A9_xor : look (xfp 0) (step (boot 0x8013 (regs [(0, 0xF0), (1, 0x3C)]))) = some (0xCC, 0, 0x202) := by decide
theorem test_A12_add_carry : look (xfp 0) (step (boot 0x8014 (regs [(0, 0xFF), (1, 0x01)]))) = some (0, 1, 0x202) := by decide
theorem test_A16_add_to_VF : look (xfp 1) (step (boot 0x8F14 (regs [(1, 0x20), (vf, 0xF0)]))) = some (0x20, 1, 0x202) := by decide
theorem test_A19_sub_borrow : look (xfp 0) (step (boot 0x8015 (regs [(0, 3), (1, 5)]))) = some (0xFE, 0, 0x202) := by decide
theorem test_A20_sub_equal : look (xfp 0) (step (boot 0x8015 (regs [(0, 7), (1, 7)]))) = some (0, 1, 0x202) := by decide
theorem test_A24_shr : look (xfp 0) (step (boot 0x8006 (regs [(0, 5)]))) = some (2, 1, 0x202) := by decide
theorem test_A28_shr_VF : look (xfp 0) (step (boot 0x8F06 (regs [(vf, 5)]))) = some (0, 2, 0x202) := by decide
theorem test_A29_subn : look (xfp 0) (step (boot 0x8017 (regs [(0, 3), (1, 5)]))) = some (2, 1, 0x202) := by decide
theorem test_A30_subn_borrow : look (xfp 0) (step (boot 0x8017 (regs [(0, 5), (1, 3)]))) = some (0xFE, 0, 0x202) := by decide
theorem test_A33_shl : look (xfp 0) (step (boot 0x800E (regs [(0, 0x81)]))) = some (2, 1, 0x202) := by decide
theorem test_A36_shl_VF : look (xfp 0) (step (boot 0x8F0E (regs [(vf, 0x81)]))) = some (0, 2, 0x202) := by decide
theorem test_A37_rnd : look (xfp 0) (step (boot 0xC00F (inputs none 0xAB))) = some (0x0B, 0, 0x202) := by decide
theorem test_A40_rnd_VF : look (xfp 0) (step (boot 0xCFF0 (inputs none 0x3C))) = some (0, 0x30, 0x202) := by decide
theorem test_M2_ld_I : look State.index (step (boot 0xAFFF id)) = some 0xFFF := by decide
theorem test_M5_add_I_crosses : look (fun t => (t.index, t.getV vf)) (step (boot 0xF21E (atIndex 0xFFF [] ∘ regs [(2, 1)])))
    = some (0x1000, 1) := by decide
theorem test_M7_add_I_wraps : look (fun t => (t.index, t.getV vf)) (step (boot 0xF21E (atIndex 0xFFFF [] ∘ regs [(2, 2)])))
    = some (1, 1) := by decide
theorem test_M9_bcd : look (fun t => (t.mem.readBytes 0x300 3, t.index))
    (step (boot 0xF033 (atIndex 0x300 [0xEE, 0xEE, 0xEE] ∘ regs [(0, 255)]))) = some ([2, 5, 5], 0x300) := by decide
theorem test_M14_bcd_out_of_bounds : look (fun t => (t.run, t.mem.read 0xFFE))
    (step (boot 0xF033 (atIndex 0xFFE [] ∘ regs [(0, 0x80)])))
    = some (.halted ⟨.outOfBoundsAddress, some 0xF033, 0x200, some 0x1000⟩, 0) := by decide
theorem test_M15_store : look (fun t => (t.mem.readBytes 0x400 4, t.index))
    (step (boot 0xF255 (atIndex 0x400 [] ∘ regs [(0, 0x11), (1, 0x22), (2, 0x33), (3, 0x44)])))
    = some ([0x11, 0x22, 0x33, 0], 0x400) := by decide
theorem test_M19_store_reports_base : look State.run (step (boot 0xF055 (atIndex 0x2000 [])))
    = some (.halted ⟨.outOfBoundsAddress, some 0xF055, 0x200, some 0x2000⟩) := by decide
theorem test_M20_load : look (fun t => (t.getV 0, t.getV 1, t.getV 2, t.getV 3))
    (step (boot 0xF265 (atIndex 0x400 [0x11, 0x22, 0x33, 0x44] ∘ regs [(3, 0x99)]))) = some (0x11, 0x22, 0x33, 0x99) := by decide
theorem test_X5_load_out_of_bounds : look (fun t => (t.run, t.getV 0))
    (step (boot 0xF265 (atIndex 0xFFE [0xAA, 0xBB] ∘ regs [(0, 0x11)])))
    = some (.halted ⟨.outOfBoundsAddress, some 0xF265, 0x200, some 0x1000⟩, 0x11) := by decide
theorem test_DR5_draw_wraps_in_its_row : look (fun t => ([59, 60, 63, 0, 3, 4].map (Framebuffer.cell t.fb 30),
      Framebuffer.cell t.fb 31 0, t.getV vf)) (step (boot 0xD011 (atIndex 0x300 [0xFF] ∘ regs [(0, 60), (1, 30)])))
    = some ([false, true, true, true, true, false], false, 0) := by decide
theorem test_DR10_draw_collides : look (fun t => (Framebuffer.cell t.fb 0 1, Framebuffer.cell t.fb 0 0, t.getV vf))
    (step (boot 0xD011 fun s => atIndex 0x300 [0x40] (s.setFb (Framebuffer.setCell s.fb 0 1 true)))) = some (false, false, 1) := by
  decide
theorem test_T6_skp : look State.pc (step (boot 0xE09E (inputs (some 5) 0 ∘ regs [(0, 5)]))) = some 0x204 := by decide
theorem test_T8_skp_whole_byte : look State.pc (step (boot 0xE09E (inputs (some 5) 0 ∘ regs [(0, 0x15)]))) = some 0x202 := by decide
theorem test_T10_sknp_same : look State.pc (step (boot 0xE0A1 (inputs (some 5) 0 ∘ regs [(0, 5)]))) = some 0x202 := by decide
theorem test_T11_sknp_none : look State.pc (step (boot 0xE0A1 (inputs none 0 ∘ regs [(0, 5)]))) = some 0x204 := by decide
theorem test_T1_set_DT : look State.dt (step (boot 0xF315 (regs [(3, 5)]))) = some 5 := by decide
theorem test_T2_read_DT : look (xfp 3) (step (boot 0xF307 (·.setDt 0x3C))) = some (0x3C, 0, 0x202) := by decide
theorem test_T12_wait : look (fun t => (t.run, t.pc)) (step (boot 0xF50A (·.setPc 0x220))) = some (.waitKey 5, 0x222) := by decide

/-! ## The other events -/

theorem test_T3_timer : look State.dt (step { State.reset with dt := 5, events := [.timerTick] }) = some 4 := by decide
theorem test_T13_timer_stalls : look State.dt (step { State.reset with dt := 9, run := .waitKey 5, events := [.timerTick] })
    = some 9 := by decide
theorem test_T14_key_event : look (fun t => (t.getV vf, t.run))
    (step { State.reset with run := .waitKey vf, events := [.keyEvent 4] }) = some (4, .running) := by decide
theorem test_E17_fetch_bound : look State.run (step { State.reset with pc := 0x1000 })
    = some (.halted ⟨.outOfBoundsAddress, none, 0x1000, some 0x1000⟩) := by decide
theorem test_E14_unknown : look (fun t => (t.run, t.pc)) (step (boot 0xFFFF id))
    = some (.halted ⟨.unknownOpcode, some 0xFFFF, 0x200, none⟩, 0x200) := by decide
theorem test_X1_halted_is_sticky : look (fun t => (t.dt, t.run))
    (step { State.reset with dt := 5, run := .halted ⟨.unknownOpcode, some 0xFFFF, 0x200, none⟩, events := [.timerTick] })
    = some (5, .halted ⟨.unknownOpcode, some 0xFFFF, 0x200, none⟩) := by decide
theorem test_RS1_reset : look (fun t => (t.mem, t.pc, t.run))
    (step { State.reset with pc := 0x555, run := .waitKey 3, events := [.reset [0x12, 0x00] Config.defaultLowImage] })
    = some ([(0x200, 0x12)], 0x200, .running) := by decide +kernel
theorem test_fetchWord_drops_earlier_events : (boot 0x6005 fun s => { s with events := [.timerTick, .instrTick none 7] }).events
    = [.instrTick none 7] := rfl

/-! ## Witnesses: states and operands that meet the hypotheses of the obligations -/

theorem witness_decodeOfEncode : Instr.wf (.drw 15 0 15) = true ∧ Instr.wf .cls = true := by decide
theorem witness_encodeOfDecode : decode 0x8AB6 = .ok (.shr 0xA 0xB) := by decide
theorem witness_illegal_at_the_edges_of_each_line : ∀ w ∈ ([0x0000, 0x00ED, 0x0FFF, 0x5001, 0x5FFF, 0x8008, 0x8FFF, 0x9001,
    0x9FFF, 0xB000, 0xBFFF, 0xE09D, 0xEFFF, 0xF018, 0xF029, 0xFFFF] : List Word), IllegalOpcode w := by simp [IllegalOpcode]
theorem witness_legal_at_the_edges_of_each_line : ∀ w ∈ ([0x00E0, 0x00EE, 0x1000, 0x5FF0, 0x8FF7, 0x8FFE, 0x9000, 0xAFFF,
    0xC000, 0xDFFF, 0xEF9E, 0xE0A1, 0xF007, 0xFF65] : List Word), ¬ IllegalOpcode w := by simp [IllegalOpcode]
theorem witness_stepRuns : ∃ (s : State) (w : Word) (i : Instr), s.run = .running ∧ s.TicksNext ∧ s.pc.toNat ≤ 0xFFE ∧
    w.toNat = 256 * (s.mem.read s.pc.toNat).toNat + (s.mem.read (s.pc.toNat + 1)).toNat ∧ decode w = .ok i ∧
    s.events = .instrTick (some 3) 9 :: [.timerTick] :=
  ⟨boot 0x6005 fun s => { s with pc := 0xFFE, events := [.instrTick (some 3) 9, .timerTick] }, 0x6005, .ldImm 0 5,
    by decide, rfl, by decide, by decide, by decide, rfl⟩
theorem witness_unknownOpcode : ∃ (s : State) (w : Word), s.run = .running ∧ s.TicksNext ∧ s.pc.toNat ≤ 0xFFE ∧
    w.toNat = 256 * (s.mem.read s.pc.toNat).toNat + (s.mem.read (s.pc.toNat + 1)).toNat ∧ ∀ i, decode w ≠ .ok i :=
  ⟨State.reset, 0, by decide, rfl, by decide, by decide, fun _ h => by cases h⟩
theorem witness_fetchAbove_0xFFF : ∃ s : State, s.run = .running ∧ s.TicksNext ∧ 0xFFE < s.pc.toNat ∧ s.pc.toNat = 0xFFF :=
  ⟨State.reset.setPc 0xFFF, rfl, rfl, by decide, rfl⟩
theorem witness_fetchAbove_0x1000 : ∃ s : State, s.run = .running ∧ s.TicksNext ∧ 0xFFE < s.pc.toNat ∧ s.pc.toNat ≠ 0xFFF :=
  ⟨State.reset.setPc 0x1000, rfl, rfl, by decide, by decide⟩
theorem witness_execAnswers : ∃ t, exec (.addReg 0 1) State.reset = .next t := ⟨_, rfl⟩
theorem witness_errors : ∃ (i : Instr) (s t : State) (e : ErrorRecord), exec i s = .next t ∧ s.run = .running ∧ t.run = .halted e :=
  ⟨.ret, State.reset, _, _, rfl, rfl, rfl⟩
/-- The four causes at their boundary: DXYN, FX33, FX55 and FX65 one byte beyond 0xFFF. -/
theorem witness_accessAbove : 0xFFF < (State.reset.setIndex 0xFFF).base + 2 - 1 ∧ 0xFFF < (State.reset.setIndex 0x1000).base + 1 - 1 ∧
    0xFFF < (State.reset.setIndex 0xFFE).base + 2 ∧ 0xFFF < (State.reset.setIndex 0xFF1).base + (15 : Reg).val ∧
    0xFFF < (State.reset.setIndex 0x1000).base + (0 : Reg).val := by decide
theorem witness_call : ∀ k : Fin 16, ∃ s : State, k.val = s.sp.val := fun k => ⟨{ State.reset with sp := k.castSucc }, rfl⟩
theorem witness_call_full : ∃ s : State, s.sp.val = 16 := ⟨{ State.reset with sp := 16 }, rfl⟩
theorem witness_ret : ∀ k : Fin 16, ∃ s : State, k.val + 1 = s.sp.val := fun k => ⟨{ State.reset with sp := k.succ }, rfl⟩
theorem witness_ret_empty : State.reset.sp.val = 0 := by decide
theorem witness_not_VF : (0 : Reg) ≠ vf ∧ (14 : Reg) ≠ vf := by decide
theorem witness_bcd : let s := State.reset.setIndex 0xFFD
    s.mem.wf = true ∧ s.base + 2 ≤ 0xFFF := by decide
theorem witness_store_and_load : let s := State.reset.setIndex 0xFF0
    s.mem.wf = true ∧ s.base + (15 : Reg).val ≤ 0xFFF ∧ (0 : Reg) ≤ 15 := by decide
theorem witness_fetchSeesStore : let s := (State.reset.setPc 0xFFC).setIndex 0xFFE
    s.mem.wf = true ∧ s.base + (1 : Reg).val ≤ 0xFFF ∧ s.pc.toNat ≤ 0xFFC ∧ (1 : Reg).val = (0 : Reg).val + 1 ∧ (1 : Reg) ≤ 1 ∧
    s.base + (0 : Reg).val = s.pc.toNat + 2 := by decide
/-- A covered cell at the wrap of both axes, and an uncovered one. -/
theorem witness_draw : ([0xFF, 0xFF] : List Byte).length ≤ 15 ∧ (0 : Fin 32).val = ((31 : Byte).toNat + 1) % 32 ∧
    (3 : Fin 64).val = ((60 : Byte).toNat + 7) % 64 ∧
    ∀ r < 2, ∀ c < 8, ¬ ((5 : Fin 32).val = ((31 : Byte).toNat + r) % 32 ∧ (3 : Fin 64).val = ((60 : Byte).toNat + c) % 64) := by decide
theorem witness_drw : (State.reset.setIndex 0xFFF).base + 1 - 1 ≤ 0xFFF ∧ (State.reset.setIndex 0xFF1).base + 15 - 1 ≤ 0xFFF := by decide
theorem witness_framebufferPort : (2047 : Fin 2048).val = (31 : Fin 32).val * 64 + (63 : Fin 64).val := by decide
/-- Both clauses of the key skips: a tick whose key is V[0], and one with no key. -/
theorem witness_keySkips : (inputs (some 0) 0 State.reset).lastKey = some 0 ∧ (0 : Key).val = (State.reset.getV 0).toNat ∧
    (inputs none 0 State.reset).lastKey = none := by decide
theorem witness_keyEvent : (State.reset.setRun (.waitKey 15)).run = .waitKey 15 := by decide
theorem witness_leaving : ∃ s t : State, s.run ≠ .running ∧ step s = .next t :=
  ⟨State.reset.setRun (.waitKey 0), _, by decide, rfl⟩
theorem witness_dropped : State.reset.run = .running := by decide
theorem witness_oldest : ∃ (s t : State) (e : Event) (rest : List Event), s.events = e :: rest ∧ applyEvent e s = .next t :=
  ⟨{ State.reset with events := [.timerTick] }, _, _, _, rfl, rfl⟩
theorem witness_tickInputs : (∀ x nn, Instr.cls ≠ .rnd x nn) ∧ (∀ x, Instr.cls ≠ .skp x) ∧ ∀ x, Instr.cls ≠ .sknp x := by
  refine ⟨fun _ _ h => ?_, fun _ h => ?_, fun _ h => ?_⟩ <;> cases h
theorem witness_rom : (List.replicate 3584 (0xAB : Byte)).length ≤ 3584 ∧ 3584 < (List.replicate 3585 (0xAB : Byte)).length := by
  rw [List.length_replicate, List.length_replicate]
  decide
theorem witness_invariant : ∃ s t : State, Inv s ∧ step s = .next t :=
  ⟨State.reset, _, ⟨rfl, by decide, by decide, fun _ h => by cases h⟩, rfl⟩

end Sys2Proof.Tests
end

/-! SUPPORT. The state family: frames, what an instruction and an event can do, and the invariant -/

namespace Sys2Proof.Machine

/-! ## Frames

One rule per state operation: it stays inside every frame that allows the parts it writes. -/

section Frames

variable {W : Part → Prop} {s t u : State}

theorem Part.Same.trans {p : Part} (h : p.Same s t) (h' : p.Same t u) : p.Same s u := by
  cases p <;> exact Eq.trans h' h

theorem SameExcept.trans (h : SameExcept W s t) (h' : SameExcept W t u) : SameExcept W s u :=
  fun p hp => (h p hp).trans (h' p hp)

/-- The registers may be replaced at will where the frame allows it. -/
theorem sameExcept_v (v : Vector Byte 16) (h : ∀ x : Reg, ¬ W (.reg x) → v[x] = s.v[x]) :
    SameExcept W s { s with v := v } := by
  intro p hp
  cases p with
  | reg x => exact h x hp
  | _ => rfl

theorem sameExcept_setV {x : Reg} (b : Byte) (h : W (.reg x)) : SameExcept W s (s.setV x b) := by
  intro p hp
  cases p with
  | reg y => exact getV_setV_of_ne s b fun hxy : x = y => hp (hxy ▸ h)
  | _ => rfl

theorem sameExcept_setPc (w : Word) (h : W .pc) : SameExcept W s (s.setPc w) := by
  intro p hp
  cases p with
  | pc => exact absurd h hp
  | _ => rfl

theorem sameExcept_advance (h : W .pc) : SameExcept W s s.advance := sameExcept_setPc (s.pc + 2) h

theorem sameExcept_skipWhen (c : Bool) (h : W .pc) : SameExcept W s (s.skipWhen c) := sameExcept_setPc _ h

theorem sameExcept_setIndex (w : Word) (h : W .index) : SameExcept W s (s.setIndex w) := by
  intro p hp
  cases p with
  | index => exact absurd h hp
  | _ => rfl

theorem sameExcept_setDt (b : Byte) (h : W .dt) : SameExcept W s (s.setDt b) := by
  intro p hp
  cases p with
  | dt => exact absurd h hp
  | _ => rfl

theorem sameExcept_setRun (r : RunStatus) (h : W .run) : SameExcept W s (s.setRun r) := by
  intro p hp
  cases p with
  | run => exact absurd h hp
  | _ => rfl

theorem sameExcept_raise (k : ErrorKind) (o : Option Word) (a : Option Nat) (h : W .run) :
    SameExcept W s (raise k o a s) := sameExcept_setRun _ h

theorem sameExcept_setFb (fb : Framebuffer)
    (h : ∀ r c, ¬ W (.cell r c) → Framebuffer.cell fb r c = Framebuffer.cell s.fb r c) : SameExcept W s (s.setFb fb) := by
  intro p hp
  cases p with
  | cell r c => exact h r c hp
  | _ => rfl

theorem sameExcept_setMem (m : Memory) (h : ∀ a, ¬ W (.byte a) → m.read a = s.mem.read a) :
    SameExcept W s (s.setMem m) := by
  intro p hp
  cases p with
  | byte a => exact h a hp
  | _ => rfl

/-- `State.setEnvironment` replaces the two fields that are no part of the core (logs 1, 2). -/
def State.setEnvironment (s : State) (evs : List Event) (d : Nat) : State := { s with events := evs, draws := d }

theorem sameCore_setEnvironment (s : State) (evs : List Event) (d : Nat) : SameCore s (s.setEnvironment evs d) := by
  intro p hp
  cases p with
  | events => exact absurd (.inl rfl) hp
  | draws => exact absurd (.inr rfl) hp
  | _ => rfl

theorem sameCore_consume (s : State) : SameCore s s.consume := sameCore_setEnvironment s _ _

end Frames

/-! ## The call stack: what CALL and RET do, in closed form -/

theorem push_eq (w : Word) (s : State) (k : Fin 16) (h : k.val = s.sp.val) :
    s.push w = some { s with stack := s.stack.set k w, sp := k.succ } := by
  have hk : s.sp.val < 16 := h ▸ k.isLt
  obtain rfl : k = ⟨s.sp.val, hk⟩ := Fin.ext h
  exact dif_pos hk

theorem pop_eq (s : State) (k : Fin 16) (h : k.val + 1 = s.sp.val) :
    s.pop = some (s.stack[k], { s with sp := k.castSucc }) := by
  have hk : s.sp.val - 1 < 16 := by omega
  obtain rfl : k = ⟨s.sp.val - 1, hk⟩ := Fin.ext (by simp only; omega)
  exact if_neg (by omega)

theorem execCall_of_room (nnn : Addr12) (s : State) (k : Fin 16) (h : k.val = s.sp.val) :
    execCall nnn s = .next { s with pc := zextNNN nnn, stack := s.stack.set k (s.pc + 2), sp := k.succ } := by
  simp only [execCall, push_eq s.advance.pc s.advance k h]
  rfl

theorem execCall_of_full (nnn : Addr12) (s : State) (h : s.sp.val = 16) :
    execCall nnn s = .next (raise .stackOverflow (some (encode (.call nnn))) none s) := by
  simp only [execCall, push_of_full s.advance s.advance.pc h]

theorem execRet_of_entry (s : State) (k : Fin 16) (h : k.val + 1 = s.sp.val) :
    execRet s = .next { s with pc := s.stack[k], sp := k.castSucc } := by
  simp only [execRet, pop_eq s.advance k h]
  rfl

theorem execRet_of_empty (s : State) (h : s.sp.val = 0) :
    execRet s = .next (raise .stackUnderflow (some (encode .ret)) none s) := by
  simp only [execRet, pop_of_empty s.advance h]

theorem stack_set_of_ne (stack : Vector Word 16) {k j : Fin 16} (w : Word) (h : j ≠ k) : (stack.set k w)[j] = stack[j] := by
  have hne : k.val ≠ j.val := fun e => h (Fin.ext e.symm)
  simp [hne]

/-! ## Drawing leaves the cells outside the sprite alone (R171, R172) -/

section Draw

variable {x y : Byte} {row : Fin 32} {col : Fin 64}

theorem cell_foldl_drawCell_outside (r : Nat) (b : Byte) (cs : List Nat) (p : Framebuffer × Bool)
    (h : ∀ c ∈ cs, ¬ (row = spriteRow y r ∧ col = spriteCol x c)) :
    Framebuffer.cell (cs.foldl (drawCell x y r b) p).1 row col = Framebuffer.cell p.1 row col := by
  induction cs generalizing p with
  | nil => rfl
  | cons c cs ih =>
    rw [List.foldl_cons, ih _ fun c' hc' => h c' (List.mem_cons_of_mem c hc'), drawCell_cell]
    simp [h c List.mem_cons_self]

theorem cell_drawRow_outside (r : Nat) (b : Byte) (p : Framebuffer × Bool)
    (h : ∀ c < 8, ¬ (row = spriteRow y r ∧ col = spriteCol x c)) :
    Framebuffer.cell (drawRow x y r b p).1 row col = Framebuffer.cell p.1 row col :=
  cell_foldl_drawCell_outside r b _ p fun c hc =>
    h c ((by decide : ∀ c ∈ [0, 1, 2, 3, 4, 5, 6, 7], c < 8) c hc)

theorem cell_drawRows_outside (r : Nat) (bytes : List Byte) (p : Framebuffer × Bool)
    (h : ∀ i < bytes.length, ∀ c < 8, ¬ (row = spriteRow y (r + i) ∧ col = spriteCol x c)) :
    Framebuffer.cell (drawRows x y r bytes p).1 row col = Framebuffer.cell p.1 row col := by
  induction bytes generalizing r p with
  | nil => rfl
  | cons b rest ih =>
    rw [drawRows, ih, cell_drawRow_outside r b p (h 0 (by simp))]
    intro i hi c hc
    rw [Nat.add_right_comm]
    exact h (i + 1) (by simpa using hi) c hc

theorem cell_draw_outside (fb : Framebuffer) (bytes : List Byte)
    (h : ∀ r < bytes.length, ∀ c < 8, ¬ (row = spriteRow y r ∧ col = spriteCol x c)) :
    Framebuffer.cell (draw fb x y bytes).1 row col = Framebuffer.cell fb row col :=
  cell_drawRows_outside 0 bytes (fb, false) (by simpa using h)

end Draw

/-! ## What an instruction can do

`exec_ends` is the one case split over the instructions: each completes inside its frame, or raises an error. -/

/-- What holds of every completed instruction: its frame, where it leaves PC, the only new stack entry, and that it
neither halts nor spoils memory. -/
structure Completes (i : Instr) (s t : State) : Prop where
  frame : SameExcept (fun p => p = .pc ∨ MayWrite i s p) s t
  pc : t.pc = s.pc + 2 ∨ t.pc = s.pc + 4 ∨ t.pc.toNat ≤ 0xFFF ∨ ∃ k : Fin 16, t.pc = s.stack[k]
  stack : ∀ k : Fin 16, t.stack[k] = s.stack[k] ∨ t.stack[k] = s.pc + 2
  run : t.run = s.run ∨ ∃ x, t.run = .waitKey x
  mem : s.mem.wf = true → t.mem.wf = true

/-- `t` is `s` halted with a well-shaped record. -/
def Raises (s t : State) : Prop :=
  ∃ kind opcode addr, t = raise kind opcode addr s ∧ (ErrorRecord.mk kind opcode s.pc addr).WellShaped

/-- The two ways an instruction ends. -/
def Ends (i : Instr) (s : State) (r : Result) : Prop := ∃ t, r = .next t ∧ (Completes i s t ∨ Raises s t)

section Outcome

variable {i : Instr} {s t : State}

theorem Completes.ends (h : Completes i s t) : Ends i s (.next t) := ⟨t, rfl, .inl h⟩

theorem ends_raise {kind : ErrorKind} {opcode : Option Word} {addr : Option Nat}
    (h : (ErrorRecord.mk kind opcode s.pc addr).WellShaped) : Ends i s (.next (raise kind opcode addr s)) :=
  ⟨_, rfl, .inr ⟨kind, opcode, addr, rfl, h⟩⟩

theorem wellShaped_outOfBounds (opcode : Option Word) (pc : Word) (base : Nat) :
    (ErrorRecord.mk .outOfBoundsAddress opcode pc (some (max base 0x1000))).WellShaped :=
  ⟨_, rfl, Nat.le_max_right base 0x1000⟩

/-- A guarded access ends well when its in-range result completes. -/
theorem guardRange_ends {base count : Nat} (w : Word) (h : count = 0 ∨ base + count ≤ 0x1000 → Completes i s t) :
    Ends i s (guardRange base count w s t) := by
  obtain ⟨hin, heq⟩ | ⟨-, -, heq⟩ := guardRange_cases base count w s t
  · exact heq ▸ (h hin).ends
  · exact heq ▸ ends_raise (wellShaped_outOfBounds (some w) s.pc base)

theorem advance_completes (i : Instr) (s : State) : Completes i s s.advance where
  frame := sameExcept_advance (.inl rfl)
  pc := .inl rfl
  stack _ := .inl rfl
  run := .inl rfl
  mem := id

theorem skip_completes (i : Instr) (s : State) (c : Bool) : Completes i s (s.advance.skipWhen c) where
  frame := (sameExcept_advance (.inl rfl)).trans (sameExcept_skipWhen c (.inl rfl))
  pc := by
    cases c with
    | false => exact .inl rfl
    | true => exact .inr (.inl (BitVec.add_assoc s.pc 2 2))
  stack _ := .inl rfl
  run := .inl rfl
  mem := id

theorem zextNNN_toNat_le (nnn : Addr12) : (zextNNN nnn).toNat ≤ 0xFFF := by
  have := nnn.isLt
  rw [zextNNN, BitVec.toNat_setWidth]
  omega

theorem jump_completes (nnn : Addr12) (s : State) : Completes (.jp nnn) s (s.advance.setPc (zextNNN nnn)) where
  frame := (sameExcept_advance (.inl rfl)).trans (sameExcept_setPc _ (.inl rfl))
  pc := .inr (.inr (.inl (zextNNN_toNat_le nnn)))
  stack _ := .inl rfl
  run := .inl rfl
  mem := id

theorem Completes.setV (h : Completes i s t) {x : Reg} (b : Byte) (hx : MayWrite i s (.reg x)) :
    Completes i s (t.setV x b) :=
  { h with frame := h.frame.trans (sameExcept_setV b (.inr hx)) }

theorem Completes.setIndex (h : Completes i s t) (w : Word) (hw : MayWrite i s .index) :
    Completes i s (t.setIndex w) :=
  { h with frame := h.frame.trans (sameExcept_setIndex w (.inr hw)) }

theorem Completes.setDt (h : Completes i s t) (b : Byte) (hw : MayWrite i s .dt) : Completes i s (t.setDt b) :=
  { h with frame := h.frame.trans (sameExcept_setDt b (.inr hw)) }

theorem Completes.wait (h : Completes i s t) (x : Reg) (hw : MayWrite i s .run) :
    Completes i s (t.setRun (.waitKey x)) :=
  { h with frame := h.frame.trans (sameExcept_setRun _ (.inr hw)), run := .inr ⟨x, rfl⟩ }

theorem Completes.setFb (h : Completes i s t) (fb : Framebuffer)
    (hw : ∀ r c, ¬ MayWrite i s (.cell r c) → Framebuffer.cell fb r c = Framebuffer.cell t.fb r c) :
    Completes i s (t.setFb fb) :=
  { h with frame := h.frame.trans (sameExcept_setFb fb fun r c hrc => hw r c fun hm => hrc (.inr hm)) }

/-- Consecutive bytes stored inside the address space. -/
theorem store_completes (bytes : List Byte) (hin : s.base + bytes.length ≤ 0x1000)
    (hw : ∀ k < bytes.length, MayWrite i s (.byte (s.base + k))) :
    Completes i s (s.advance.setMem (s.mem.writeBytes s.base bytes)) where
  frame := (sameExcept_advance (.inl rfl)).trans <| sameExcept_setMem _ fun a ha => by
    refine Memory.read_writeBytes_outside s.mem ?_
    by_contra hout
    have hk : a = s.base + (a - s.base) := by omega
    exact ha (.inr (hk ▸ hw (a - s.base) (by omega)))
  pc := .inl rfl
  stack _ := .inl rfl
  run := .inl rfl
  mem hwf := Memory.writeBytes_wf hwf hin

theorem load_completes (x : Reg) (s : State) :
    Completes (.ldVxMem x) s { s.advance with v := loadRegs s.v 0 (s.mem.readBytes s.base (x.val + 1)) } where
  frame := (sameExcept_advance (.inl rfl)).trans <| sameExcept_v _ fun r hr => by
    have hlt : ¬ r.val < x.val + 1 := fun h => hr (.inr ⟨r, Nat.le_of_lt_succ h, rfl⟩)
    rw [getElem_loadRegs, dif_neg (by simpa using hlt)]
    rfl
  pc := .inl rfl
  stack _ := .inl rfl
  run := .inl rfl
  mem := id

theorem draw_completes (x y : Reg) (n : Nat) (s : State) :
    Completes (.drw x y n) s
      ((s.advance.setFb (draw s.fb (s.getV x) (s.getV y) (s.spriteBytes n)).1).setV vf
        (flagByte (draw s.fb (s.getV x) (s.getV y) (s.spriteBytes n)).2)) := by
  refine ((advance_completes _ s).setFb _ fun row col hout => ?_).setV _ (.inl rfl)
  refine cell_draw_outside s.fb _ fun r hr c hc hcell => hout (.inr ⟨r, c, ?_, hc, ?_⟩)
  · simpa [State.spriteBytes] using hr
  · rw [hcell.1, hcell.2]

theorem call_ends (nnn : Addr12) (s : State) : Ends (.call nnn) s (execCall nnn s) := by
  by_cases h : s.sp.val < 16
  · rw [execCall_of_room nnn s ⟨s.sp.val, h⟩ rfl]
    refine Completes.ends ⟨fun p hp => ?_, .inr (.inr (.inl (zextNNN_toNat_le nnn))), fun k => ?_, .inl rfl, id⟩
    · cases p with
      | pc => exact absurd (.inl rfl) hp
      | sp => exact absurd (.inr (.inl rfl)) hp
      | stackEntry k => exact stack_set_of_ne _ _ fun hk => hp (.inr (.inr ⟨k, congrArg Fin.val hk, rfl⟩))
      | _ => rfl
    · by_cases hk : k = ⟨s.sp.val, h⟩
      · subst hk
        exact .inr (Vector.getElem_set_self _)
      · exact .inl (stack_set_of_ne _ _ hk)
  · rw [execCall_of_full nnn s (by omega)]
    exact ends_raise ⟨rfl, rfl⟩

theorem ret_ends (s : State) : Ends .ret s (execRet s) := by
  by_cases h : s.sp.val = 0
  · rw [execRet_of_empty s h]
    exact ends_raise ⟨rfl, rfl⟩
  · have hk : s.sp.val - 1 < 16 := by omega
    rw [execRet_of_entry s ⟨s.sp.val - 1, hk⟩ (Nat.sub_add_cancel (Nat.pos_of_ne_zero h))]
    refine Completes.ends ⟨fun p hp => ?_, .inr (.inr (.inr ⟨_, rfl⟩)), fun _ => .inl rfl, .inl rfl, id⟩
    cases p with
    | pc => exact absurd (.inl rfl) hp
    | sp => exact absurd (.inr rfl) hp
    | _ => rfl

/-- Every instruction completes or raises an error. -/
theorem exec_ends (i : Instr) (s : State) : Ends i s (exec i s) := by
  have adv := advance_completes i s
  cases i with
  | cls => exact (adv.setFb clearedFramebuffer fun r c hrc => absurd ⟨r, c, rfl⟩ hrc).ends
  | ret => exact ret_ends s
  | jp nnn => exact (jump_completes nnn s).ends
  | call nnn => exact call_ends nnn s
  | seImm | sneImm | seReg | sneReg | skp | sknp => exact (skip_completes _ s _).ends
  | ldImm | addImm | ldReg | orReg | andReg | xorReg | rnd | ldVxDT => exact (adv.setV _ rfl).ends
  | addReg | subReg | subn => exact ((adv.setV _ (.inl rfl)).setV _ (.inr rfl)).ends
  | shr | shl => exact ((adv.setV _ (.inr rfl)).setV _ (.inl rfl)).ends
  | ldI nnn => exact (adv.setIndex _ rfl).ends
  | addIVx x => exact ((adv.setIndex _ (.inl rfl)).setV _ (.inr rfl)).ends
  | ldDTVx x => exact (adv.setDt _ rfl).ends
  | ldVxK x => exact (adv.wait x rfl).ends
  | drw x y n => exact guardRange_ends _ fun _ => draw_completes x y n s
  | ldBVx x =>
    exact guardRange_ends _ fun hin => store_completes _ (hin.resolve_left (by decide)) fun k hk => ⟨k, hk, rfl⟩
  | ldMemVx x =>
    refine guardRange_ends _ fun hin => store_completes _ ?_ fun k hk => ⟨k, ?_, rfl⟩
    · simpa using hin
    · simpa [Nat.lt_succ_iff] using hk
  | ldVxMem x => exact guardRange_ends _ fun _ => load_completes x s

theorem completes_or_raises_of_exec (h : exec i s = .next t) : Completes i s t ∨ Raises s t := by
  obtain ⟨u, hu, hend⟩ := exec_ends i s
  obtain rfl : u = t := by simpa [hu] using h
  exact hend

end Outcome

/-! ## Events and steps -/

section Events

variable {s t : State}

/-- A step is the next event, and then the event is over. -/
theorem step_eq_next_iff : step s = .next t ↔ ∃ u, applyEvent s.nextEvent s = .next u ∧ u.consume = t := by
  unfold step stepEvent
  cases applyEvent s.nextEvent s <;> simp

theorem nextEvent_of_events {e : Event} {rest : List Event} (h : s.events = e :: rest) : s.nextEvent = e := by
  simp only [State.nextEvent, h]

theorem instrTick_of_running (h : s.run = .running) : instrTick s = fetchExecute s := by
  simp only [instrTick, h]

theorem instrTick_of_not_running (h : s.run ≠ .running) : instrTick s = .next s := by
  cases hr : s.run with
  | running => exact absurd hr h
  | waitKey | halted => simp only [instrTick, hr]

theorem timerTick_of_running (h : s.run = .running) :
    timerTick s = .next (s.setDt (if s.dt = 0 then s.dt else s.dt - 1)) := by
  simp only [timerTick, h]

theorem timerTick_of_not_running (h : s.run ≠ .running) : timerTick s = .next s := by
  cases hr : s.run with
  | running => exact absurd hr h
  | waitKey | halted => simp only [timerTick, hr]

theorem keyEvent_of_waitKey (k : Key) {x : Reg} (h : s.run = .waitKey x) :
    keyEvent k s = .next ((s.setV x (keyByte k)).setRun .running) := by
  simp only [keyEvent, h]

theorem keyEvent_of_not_waitKey (k : Key) (h : ∀ x, s.run ≠ .waitKey x) : keyEvent k s = .next s := by
  cases hr : s.run with
  | waitKey x => exact absurd hr (h x)
  | running | halted => simp only [keyEvent, hr]

theorem resetEvent_eq_next_iff {rom : List Byte} {low : Vector Byte 512} :
    resetEvent rom low s = .next t ↔ rom.length ≤ Config.maxRom ∧ s.afterReset rom low = t := by
  unfold resetEvent
  split <;> simp [*]

/-- A tick in Running completes the instruction at a fetch address inside memory, or it raises an error. -/
theorem completes_or_raises_of_fetchExecute (h : fetchExecute s = .next t) :
    (s.pc.toNat + 2 ≤ 0x1000 ∧ ∃ i, Completes i s t) ∨ Raises s t := by
  unfold fetchExecute at h
  cases hr : checkRange s.pc.toNat 2 with
  | some a =>
    obtain ⟨-, -, rfl⟩ := (checkRange_eq_some_iff _ _ _).1 hr
    rw [hr] at h
    cases h
    exact .inr ⟨_, _, _, rfl, wellShaped_outOfBounds none s.pc s.pc.toNat⟩
  | none =>
    have hpc := ((checkRange_eq_none_iff _ _).1 hr).resolve_left (by decide)
    rw [hr] at h
    cases hd : decode (fetchOpcode s) with
    | ok i =>
      rw [hd] at h
      exact (completes_or_raises_of_exec h).imp_left fun hc => ⟨hpc, i, hc⟩
    | error r =>
      rw [hd] at h
      cases h
      exact .inr ⟨_, _, _, rfl, rfl, rfl⟩

/-- The effects an event can have (R43): most are idle in some run status. -/
inductive EventEffect (s : State) : Event → State → Prop
  | idle (e : Event) : EventEffect s e s
  | reset {rom : List Byte} (low : Vector Byte 512) (h : rom.length ≤ Config.maxRom) :
      EventEffect s (.reset rom low) (s.afterReset rom low)
  | tick (k : Option Key) (r : Byte) {t : State} (hrun : s.run = .running) (h : fetchExecute s = .next t) :
      EventEffect s (.instrTick k r) t
  | timer (hrun : s.run = .running) : EventEffect s .timerTick (s.setDt (if s.dt = 0 then s.dt else s.dt - 1))
  | key (k : Key) {x : Reg} (hrun : s.run = .waitKey x) :
      EventEffect s (.keyEvent k) ((s.setV x (keyByte k)).setRun .running)

theorem eventEffect_of_applyEvent {e : Event} (h : applyEvent e s = .next t) : EventEffect s e t := by
  cases e with
  | reset rom low =>
    obtain ⟨hlen, rfl⟩ := resetEvent_eq_next_iff.1 h
    exact .reset low hlen
  | instrTick k r =>
    by_cases hrun : s.run = .running
    · exact .tick k r hrun ((instrTick_of_running hrun).symm.trans h)
    · cases (instrTick_of_not_running hrun).symm.trans h
      exact .idle _
  | timerTick =>
    by_cases hrun : s.run = .running
    · cases (timerTick_of_running hrun).symm.trans h
      exact .timer hrun
    · cases (timerTick_of_not_running hrun).symm.trans h
      exact .idle _
  | keyEvent k =>
    by_cases hrun : ∃ x, s.run = .waitKey x
    · obtain ⟨x, hx⟩ := hrun
      cases (keyEvent_of_waitKey k hx).symm.trans h
      exact .key k hx
    · cases (keyEvent_of_not_waitKey k (not_exists.1 hrun)).symm.trans h
      exact .idle _

end Events

/-! ## The environment's fields: no instruction and no event touches them -/

section Environment

variable {i : Instr} {s t : State}

/-- `t` has the environment's fields of `s`. -/
def KeepsEnvironment (s t : State) : Prop := t.events = s.events ∧ t.draws = s.draws

theorem not_mayWrite_environment (i : Instr) (s : State) : ¬ MayWrite i s .events ∧ ¬ MayWrite i s .draws := by
  cases i <;> simp [MayWrite]

theorem Completes.keepsEnvironment (h : Completes i s t) : KeepsEnvironment s t := by
  obtain ⟨hevents, hdraws⟩ := not_mayWrite_environment i s
  exact ⟨h.frame .events (by simpa using hevents), h.frame .draws (by simpa using hdraws)⟩

theorem Raises.keepsEnvironment (h : Raises s t) : KeepsEnvironment s t := by
  obtain ⟨kind, opcode, addr, rfl, -⟩ := h
  exact ⟨rfl, rfl⟩

theorem applyEvent_keepsEnvironment {e : Event} (h : applyEvent e s = .next t) : KeepsEnvironment s t := by
  cases eventEffect_of_applyEvent h with
  | tick _ _ _ hf =>
    obtain ⟨-, i, hc⟩ | hr := completes_or_raises_of_fetchExecute hf
    · exact hc.keepsEnvironment
    · exact hr.keepsEnvironment
  | _ => exact ⟨rfl, rfl⟩

theorem guardRange_setEnvironment {base count : Nat} {w : Word} {u : State} (evs : List Event) (d : Nat)
    (h : guardRange base count w s t = .next u) :
    guardRange base count w (s.setEnvironment evs d) (t.setEnvironment evs d) = .next (u.setEnvironment evs d) := by
  obtain ⟨hin, heq⟩ | ⟨hpos, hout, heq⟩ := guardRange_cases base count w s t
  · cases heq.symm.trans h
    exact guardRange_of_inside w _ _ hin
  · cases heq.symm.trans h
    exact guardRange_of_outside w (s.setEnvironment evs d) _ hpos hout

theorem execCall_setEnvironment {nnn : Addr12} (evs : List Event) (d : Nat) (h : execCall nnn s = .next t) :
    execCall nnn (s.setEnvironment evs d) = .next (t.setEnvironment evs d) := by
  by_cases hsp : s.sp.val < 16
  · cases (execCall_of_room nnn s ⟨_, hsp⟩ rfl).symm.trans h
    exact execCall_of_room nnn (s.setEnvironment evs d) ⟨_, hsp⟩ rfl
  · have hfull : s.sp.val = 16 := by omega
    cases (execCall_of_full nnn s hfull).symm.trans h
    exact execCall_of_full nnn (s.setEnvironment evs d) hfull

theorem execRet_setEnvironment (evs : List Event) (d : Nat) (h : execRet s = .next t) :
    execRet (s.setEnvironment evs d) = .next (t.setEnvironment evs d) := by
  by_cases hsp : s.sp.val = 0
  · cases (execRet_of_empty s hsp).symm.trans h
    exact execRet_of_empty (s.setEnvironment evs d) hsp
  · have hlt : s.sp.val - 1 < 16 := by omega
    have hk : s.sp.val - 1 + 1 = s.sp.val := by omega
    cases (execRet_of_entry s ⟨_, hlt⟩ hk).symm.trans h
    exact execRet_of_entry (s.setEnvironment evs d) ⟨_, hlt⟩ hk

/-- Twenty-eight instructions do not read the environment: on other inputs they answer the same, the inputs aside. -/
theorem exec_setEnvironment (evs : List Event) (d : Nat) (hrnd : ∀ x nn, i ≠ .rnd x nn) (hskp : ∀ x, i ≠ .skp x)
    (hsknp : ∀ x, i ≠ .sknp x) (h : exec i s = .next t) :
    exec i (s.setEnvironment evs d) = .next (t.setEnvironment evs d) := by
  cases i with
  | rnd x nn => exact absurd rfl (hrnd x nn)
  | skp x => exact absurd rfl (hskp x)
  | sknp x => exact absurd rfl (hsknp x)
  | ret => exact execRet_setEnvironment evs d h
  | call nnn => exact execCall_setEnvironment evs d h
  | drw | ldBVx | ldMemVx | ldVxMem => exact guardRange_setEnvironment evs d h
  | _ => cases h; rfl

end Environment

/-! ## The invariant -/

section Invariant

variable {i : Instr} {s t : State}

/-- The invariant reads four fields only. -/
theorem Inv.congr (h : Inv s) (hmem : t.mem = s.mem) (hpc : t.pc = s.pc) (hstack : t.stack = s.stack)
    (hrun : t.run = s.run) : Inv t where
  memory := hmem ▸ h.memory
  pc := hpc ▸ h.pc
  stack := hstack ▸ h.stack
  halted := hpc ▸ hrun ▸ h.halted

theorem reset_inv : Inv State.reset where
  memory := rfl
  pc := by decide
  stack := by decide
  halted _ h := by cases h

theorem afterReset_inv (s : State) {rom : List Byte} (low : Vector Byte 512) (h : rom.length ≤ Config.maxRom) :
    Inv (s.afterReset rom low) :=
  { reset_inv with memory := Memory.resetMemory_wf low h }

theorem Raises.inv (h : Raises s t) (hs : Inv s) : Inv t := by
  obtain ⟨kind, opcode, addr, rfl, hshape⟩ := h
  refine ⟨hs.memory, hs.pc, hs.stack, fun e he => ?_⟩
  cases he
  exact ⟨hshape, rfl⟩

/-- A completed instruction keeps the invariant: the fetch bound keeps `PC + 4` and a pushed `PC + 2` in range, and
every other new PC is an address NNN or a stack entry. -/
theorem Completes.inv (h : Completes i s t) (hs : Inv s) (hrun : s.run = .running) (hpc : s.pc.toNat + 2 ≤ 0x1000) :
    Inv t := by
  have hnext : (s.pc + 2).toNat = s.pc.toNat + 2 := by bv_omega
  have hskip : (s.pc + 4).toNat = s.pc.toNat + 4 := by bv_omega
  refine ⟨h.mem hs.memory, ?_, fun k => ?_, fun e he => ?_⟩
  · obtain heq | heq | hle | ⟨k, heq⟩ := h.pc
    · rw [heq, hnext]; omega
    · rw [heq, hskip]; omega
    · omega
    · rw [heq]; exact (hs.stack k).trans (by decide)
  · obtain heq | heq := h.stack k
    · exact heq ▸ hs.stack k
    · rw [heq, hnext]; exact hpc
  · obtain heq | ⟨x, heq⟩ := h.run
    · cases hrun.symm.trans (heq.symm.trans he)
    · cases heq.symm.trans he

theorem EventEffect.inv {e : Event} (h : EventEffect s e t) (hs : Inv s) : Inv t := by
  cases h with
  | idle => exact hs
  | reset low hlen => exact afterReset_inv s low hlen
  | tick _ _ hrun hf =>
    obtain ⟨hpc, i, hc⟩ | hr := completes_or_raises_of_fetchExecute hf
    · exact hc.inv hs hrun hpc
    · exact hr.inv hs
  | timer => exact hs.congr rfl rfl rfl rfl
  | key => exact ⟨hs.memory, hs.pc, hs.stack, fun e he => by cases he⟩

end Invariant

/-! ## The obligations -/

/-- Settles O50: every effect an event can have keeps the invariant, and taking the event off the list does too. -/
theorem stepKeepsTheInvariant : Obligations.StepKeepsTheInvariant := by
  intro s t hs h
  obtain ⟨u, hu, rfl⟩ := step_eq_next_iff.1 h
  exact ((eventEffect_of_applyEvent hu).inv hs).congr rfl rfl rfl rfl

/-- Settles O9: the frame of a completed instruction, or the frame of an error. -/
theorem execChangesOnlyTheListedParts : Obligations.ExecChangesOnlyTheListedParts := by
  intro i s t h
  obtain hc | ⟨kind, opcode, addr, rfl, -⟩ := completes_or_raises_of_exec h
  · exact .inl hc.frame
  · exact .inr ⟨⟨_, rfl, rfl⟩, sameExcept_raise kind opcode addr rfl⟩

/-- Settles O15: the call leaves its return address in the entry that the return pops. -/
theorem callThenReturnComesBack : Obligations.CallThenReturnComesBack := by
  intro nnn s k hk
  have hret := execRet_of_entry { s with pc := zextNNN nnn, stack := s.stack.set k (s.pc + 2), sp := k.succ } k rfl
  refine ⟨_, _, execCall_of_room nnn s k hk, hret, Vector.getElem_set_self _, fun p hp => ?_⟩
  cases p with
  | pc => exact absurd (.inl rfl) hp
  | sp => exact Fin.ext hk
  | stackEntry j => exact stack_set_of_ne _ _ fun hj => hp (.inr (congrArg Part.stackEntry hj))
  | _ => rfl

/-- Settles O41: outside Running the effects left are an idle event, a Reset, and a key event in the wait. -/
theorem onlyNamedEventsLeaveWaitAndHalt : Obligations.OnlyNamedEventsLeaveWaitAndHalt := by
  intro s t hrun h
  obtain ⟨u, hu, rfl⟩ := step_eq_next_iff.1 h
  generalize s.nextEvent = e at hu ⊢
  cases eventEffect_of_applyEvent hu with
  | idle => exact .inl (sameCore_consume s)
  | reset low _ => exact .inr (.inl ⟨_, low, rfl⟩)
  | tick _ _ hr _ => exact absurd hr hrun
  | timer hr => exact absurd hr hrun
  | key k hwait => exact .inr (.inr ⟨_, k, hwait, rfl⟩)

/-- Settles O43: the event left its list and its counter alone, so ending it takes off just the event. -/
theorem stepTakesTheOldestEvent : Obligations.StepTakesTheOldestEvent := by
  intro s t e rest hev h
  obtain ⟨hevents, hdraws⟩ := applyEvent_keepsEnvironment h
  refine step_eq_next_iff.2 ⟨t, by rwa [nextEvent_of_events hev], ?_⟩
  rw [State.consume, hevents, hdraws, hev, List.tail_cons]

/-- Settles O44: on other inputs the instruction answers the same state with those inputs. -/
theorem tickInputsReachThreeInstructionsOnly : Obligations.TickInputsReachThreeInstructionsOnly := by
  intro i s evs d hrnd hskp hsknp
  obtain ⟨t, ht, -⟩ := exec_ends i s
  exact ⟨t, t.setEnvironment evs d, ht, exec_setEnvironment evs d hrnd hskp hsknp ht, sameCore_setEnvironment t evs d⟩

/-- Settles O35: division and remainder by 64 give the row and the column back. -/
theorem framebufferPortIsRowMajor : Obligations.FramebufferPortIsRowMajor := by
  intro s row col index h
  have hrow : index.val / 64 = row.val := by omega
  have hcol : index.val % 64 = col.val := by omega
  simp only [State.fbRead, hrow, hcol]

/-- Settles O49: R46's PC is in range and its stack and memory are all zeros (D3, D4). -/
theorem resetMeetsTheInvariant : Obligations.ResetMeetsTheInvariant := reset_inv

end Sys2Proof.Machine

/-! SUPPORT. The memory family: what a fetch reads, what a tick in Running runs, and what FX55 leaves in memory -/

namespace Sys2Proof.Machine

/-! ## The fetched opcode (R53) -/

theorem toNat_opcodeOf (hi lo : Byte) : (opcodeOf hi lo).toNat = 256 * hi.toNat + lo.toNat := by
  rw [opcodeOf, BitVec.toNat_append, ← Nat.shiftLeft_add_eq_or_of_lt lo.isLt, Nat.shiftLeft_eq, Nat.mul_comm]

theorem toNat_fetchOpcode (s : State) :
    (fetchOpcode s).toNat = 256 * (s.mem.read s.pc.toNat).toNat + (s.mem.read (s.pc.toNat + 1)).toNat :=
  toNat_opcodeOf _ _

/-! ## A tick (R43, R71) -/

section Tick

variable {s : State}

theorem fetchExecute_of_decode {i : Instr} (hpc : s.pc.toNat ≤ 0xFFE) (h : decode (fetchOpcode s) = .ok i) :
    fetchExecute s = exec i s := by
  have hin : checkRange s.pc.toNat 2 = none := (checkRange_eq_none_iff _ _).2 (.inr (by omega))
  simp only [fetchExecute, hin, h]

theorem applyEvent_of_ticksNext (h : s.TicksNext) : applyEvent s.nextEvent s = instrTick s := by
  unfold State.TicksNext at h
  cases he : s.nextEvent with
  | instrTick => rfl
  | reset | timerTick | keyEvent => simp [he, Event.isInstrTick] at h

theorem lastKey_of_listed {k : Option Key} {r : Byte} {rest : List Event} (h : s.events = .instrTick k r :: rest) :
    s.lastKey = k := by
  simp only [State.lastKey, h]

theorem rand_of_listed {k : Option Key} {r : Byte} {rest : List Event} (h : s.events = .instrTick k r :: rest) :
    s.rand = r := by
  simp only [State.rand, h]

end Tick

theorem exec_keepsEnvironment {i : Instr} {s t : State} (h : exec i s = .next t) : KeepsEnvironment s t :=
  (completes_or_raises_of_exec h).elim Completes.keepsEnvironment Raises.keepsEnvironment

/-! ## The store of FX55 (R153) -/

theorem exec_ldMemVx_of_inside {x : Reg} {s : State} (h : s.base + x.val ≤ 0xFFF) :
    exec (.ldMemVx x) s = .next (s.advance.setMem (s.mem.writeBytes s.base (s.regsUpTo x))) :=
  guardRange_of_inside _ _ _ (.inr (by omega))

/-- Register `k` of the stored ones stands at `base + k`. -/
theorem read_storedRegs {x k : Reg} {s : State} (hwf : s.mem.wf = true) (h : s.base + x.val ≤ 0xFFF) (hk : k ≤ x) :
    (s.mem.writeBytes s.base (s.regsUpTo x)).read (s.base + k.val) = s.getV k := by
  have hlen : k.val < (s.regsUpTo x).length := by simpa [Nat.lt_succ_iff] using hk
  have hin : s.base + (s.regsUpTo x).length ≤ Config.memSize := by
    rw [length_regsUpTo]
    exact Nat.succ_le_succ h
  rw [Memory.read_writeBytes_inside hwf hin hlen, getElem_regsUpTo]

/-! ## The obligations -/

/-- Settles O30: both bytes of the next fetch are stored registers. -/
theorem fetchSeesTheStoreBeforeIt : Obligations.FetchSeesTheStoreBeforeIt := by
  intro x s k k' hwf hin hpc hk' hk'x hat
  have hkx : k ≤ x := (Fin.le_def.2 (by omega) : k ≤ k').trans hk'x
  have hnext : (s.pc + 2).toNat = s.base + k.val := by bv_omega
  have hnext' : s.base + k.val + 1 = s.base + k'.val := by omega
  refine ⟨_, exec_ldMemVx_of_inside hin, ?_⟩
  rw [toNat_fetchOpcode, setMem_mem, setMem_pc, advance_pc, hnext, hnext', read_storedRegs hwf hin hkx,
    read_storedRegs hwf hin hk'x]

/-- Settles O5: the word at PC is the fetched one, and the instruction it decodes to leaves the environment's fields for
the step to move on. -/
theorem stepRunsTheDecodedInstruction : Obligations.StepRunsTheDecodedInstruction := by
  intro s w i hrun htick hpc hw hdec
  refine ⟨?_, fun k r rest hev => ⟨lastKey_of_listed hev, rand_of_listed hev⟩⟩
  obtain rfl : w = fetchOpcode s := BitVec.eq_of_toNat_eq (hw.trans (toNat_fetchOpcode s).symm)
  obtain ⟨t, ht, -⟩ := exec_ends i s
  obtain ⟨hevents, hdraws⟩ := exec_keepsEnvironment ht
  rw [ht, step_eq_next_iff]
  refine ⟨t, ?_, by rw [State.consume, hevents, hdraws]⟩
  rw [applyEvent_of_ticksNext htick, instrTick_of_running hrun, fetchExecute_of_decode hpc hdec, ht]

end Sys2Proof.Machine

/-! SUPPORT. The encoding family: the fields of an encoded word and back, and the two ticks that execute nothing -/

namespace Sys2Proof

open Laws.FixedDigits (toNat_digits toNat_digitsNNN toNat_digitsXNN)

/-! ## The fields of a word given by its digits (R72)

One rule per digit form and field: the decoder reads back what the encoder put there. -/

section Fields

variable {f n : Nat}

@[simp] theorem fieldFamily_digits (x y : Reg) (hf : f < 16) (hn : n < 16) : fieldFamily (digits f x y n) = f := by
  rw [fieldFamily, toNat_digits f x y n hf x.isLt y.isLt hn]
  omega

@[simp] theorem fieldX_digits (x y : Reg) (hf : f < 16) (hn : n < 16) : fieldX (digits f x y n) = x := by
  ext
  simp only [fieldX, toNat_digits f x y n hf x.isLt y.isLt hn]
  omega

@[simp] theorem fieldY_digits (x y : Reg) (hf : f < 16) (hn : n < 16) : fieldY (digits f x y n) = y := by
  ext
  simp only [fieldY, toNat_digits f x y n hf x.isLt y.isLt hn]
  omega

@[simp] theorem fieldN_digits (x y : Reg) (hf : f < 16) (hn : n < 16) : fieldN (digits f x y n) = n := by
  rw [fieldN, toNat_digits f x y n hf x.isLt y.isLt hn]
  omega

@[simp] theorem fieldFamily_digitsXNN (x : Reg) (nn : Byte) (hf : f < 16) : fieldFamily (digitsXNN f x nn) = f := by
  rw [fieldFamily, toNat_digitsXNN f x nn hf]
  omega

@[simp] theorem fieldX_digitsXNN (x : Reg) (nn : Byte) (hf : f < 16) : fieldX (digitsXNN f x nn) = x := by
  ext
  simp only [fieldX, toNat_digitsXNN f x nn hf]
  omega

@[simp] theorem fieldNN_digitsXNN (x : Reg) (nn : Byte) (hf : f < 16) : fieldNN (digitsXNN f x nn) = nn := by
  apply BitVec.eq_of_toNat_eq
  rw [fieldNN, BitVec.toNat_setWidth, toNat_digitsXNN f x nn hf]
  omega

@[simp] theorem fieldFamily_digitsNNN (nnn : Addr12) (hf : f < 16) : fieldFamily (digitsNNN f nnn) = f := by
  rw [fieldFamily, toNat_digitsNNN f nnn hf]
  omega

@[simp] theorem fieldNNN_digitsNNN (nnn : Addr12) (hf : f < 16) : fieldNNN (digitsNNN f nnn) = nnn := by
  apply BitVec.eq_of_toNat_eq
  rw [fieldNNN, BitVec.toNat_setWidth, toNat_digitsNNN f nnn hf]
  omega

end Fields

/-! ## A word rebuilt from its fields -/

section Rebuild

variable {w : Word} {f : Nat}

theorem fieldFamily_lt (w : Word) : fieldFamily w < 16 := Nat.div_lt_of_lt_mul w.isLt

theorem fieldN_lt (w : Word) : fieldN w < 16 := Nat.mod_lt _ (by decide)

theorem digits_fields {n : Nat} (hf : fieldFamily w = f) (hn : fieldN w = n) :
    digits f (fieldX w) (fieldY w) n = w := by
  subst hf hn
  apply BitVec.eq_of_toNat_eq
  rw [toNat_digits _ _ _ _ (fieldFamily_lt w) (fieldX w).isLt (fieldY w).isLt (fieldN_lt w)]
  simp only [fieldFamily, fieldX, fieldY, fieldN]
  omega

theorem digitsXNN_fields (hf : fieldFamily w = f) : digitsXNN f (fieldX w) (fieldNN w) = w := by
  subst hf
  apply BitVec.eq_of_toNat_eq
  rw [toNat_digitsXNN _ _ _ (fieldFamily_lt w), fieldNN, BitVec.toNat_setWidth]
  simp only [fieldFamily, fieldX]
  omega

/-- The function byte of families E and F is given by its number. -/
theorem digitsXNN_fieldX {nn : Byte} (hf : fieldFamily w = f) (hnn : (fieldNN w).toNat = nn.toNat) :
    digitsXNN f (fieldX w) nn = w := by
  rw [← BitVec.eq_of_toNat_eq hnn, digitsXNN_fields hf]

theorem digitsNNN_fields (hf : fieldFamily w = f) : digitsNNN f (fieldNNN w) = w := by
  subst hf
  apply BitVec.eq_of_toNat_eq
  rw [toNat_digitsNNN _ _ (fieldFamily_lt w), fieldNNN, BitVec.toNat_setWidth]
  simp only [fieldFamily]
  omega

end Rebuild

/-! ## The decoder against the encoder (R76, R78) -/

theorem decode_encode {i : Instr} (h : i.wf = true) : decode (encode i) = .ok i := by
  cases i with
  | cls | ret => rfl
  | jp | call | ldI | seImm | sneImm | ldImm | addImm | rnd | seReg | sneReg => simp [encode, decode]
  | drw x y n =>
    have hn : n < 16 := of_decide_eq_true h
    simp [encode, decode, hn]
  | ldReg | orReg | andReg | xorReg | addReg | subReg | shr | subn | shl => simp [encode, decode, decodeFamily8]
  | skp | sknp => simp [encode, decode, decodeFamilyE]
  | ldVxDT | ldVxK | ldDTVx | addIVx | ldBVx | ldMemVx | ldVxMem => simp [encode, decode, decodeFamilyF]

/-- An answer of the decoder is exact for `w`: an instruction it names is well-formed and has the encoding `w` (D8). -/
def ExactFor (w : Word) : Except Reject Instr → Prop
  | .ok i => encode i = w ∧ i.wf = true
  | .error _ => True

section Exact

variable {w : Word}

theorem decodeFamily0_exact (w : Word) : ExactFor w (decodeFamily0 w) := by
  fun_cases decodeFamily0 w with
  | case1 hw | case2 _ hw => exact ⟨hw.symm, rfl⟩
  | case3 => trivial

theorem decodeFamily8_exact (hf : fieldFamily w = 0x8) : ExactFor w (decodeFamily8 w) := by
  fun_cases decodeFamily8 w with
  | case1 hn | case2 hn | case3 hn | case4 hn | case5 hn | case6 hn | case7 hn | case8 hn | case9 hn =>
    exact ⟨digits_fields hf hn, rfl⟩
  | case10 => trivial

theorem decodeFamilyE_exact (hf : fieldFamily w = 0xE) : ExactFor w (decodeFamilyE w) := by
  fun_cases decodeFamilyE w with
  | case1 hnn | case2 hnn => exact ⟨digitsXNN_fieldX hf hnn, rfl⟩
  | case3 => trivial

theorem decodeFamilyF_exact (hf : fieldFamily w = 0xF) : ExactFor w (decodeFamilyF w) := by
  fun_cases decodeFamilyF w with
  | case1 hnn | case2 hnn | case3 hnn | case4 hnn | case5 hnn | case6 hnn | case7 hnn =>
    exact ⟨digitsXNN_fieldX hf hnn, rfl⟩
  | case8 => trivial

theorem decode_exact (w : Word) : ExactFor w (decode w) := by
  fun_cases decode w with
  | case1 => exact decodeFamily0_exact w
  | case2 hf | case3 hf | case13 hf => exact ⟨digitsNNN_fields hf, rfl⟩
  | case4 hf | case5 hf | case8 hf | case9 hf | case14 hf => exact ⟨digitsXNN_fields hf, rfl⟩
  | case6 hf hn | case11 hf hn => exact ⟨digits_fields hf hn, rfl⟩
  | case10 hf => exact decodeFamily8_exact hf
  | case15 hf => exact ⟨digits_fields hf rfl, decide_eq_true (fieldN_lt w)⟩
  | case16 hf => exact decodeFamilyE_exact hf
  | case17 hf => exact decodeFamilyF_exact hf
  | case7 | case12 | case18 => trivial

end Exact

end Sys2Proof

namespace Sys2Proof.Machine

/-! ## A tick that executes nothing (R71, R77) -/

section Halt

variable {s : State}

theorem SameExcept.mono {W W' : Part → Prop} {t : State} (h : SameExcept W s t) (hW : ∀ p, W p → W' p) :
    SameExcept W' s t :=
  fun p hp => h p (mt (hW p) hp)

theorem fetchExecute_of_unknown {r : Reject} (hpc : s.pc.toNat ≤ 0xFFE) (h : decode (fetchOpcode s) = .error r) :
    fetchExecute s = .next (raise .unknownOpcode (some (fetchOpcode s)) none s) := by
  have hin : checkRange s.pc.toNat 2 = none := (checkRange_eq_none_iff _ _).2 (.inr (by omega))
  simp only [fetchExecute, hin, h]

theorem fetchExecute_of_outside (hpc : 0xFFE < s.pc.toNat) :
    fetchExecute s = .next (raise .outOfBoundsAddress none (some (max s.pc.toNat 0x1000)) s) := by
  have hout : checkRange s.pc.toNat 2 = some (max s.pc.toNat 0x1000) :=
    (checkRange_eq_some_iff _ _ _).2 ⟨by decide, by omega, rfl⟩
  simp only [fetchExecute, hout]

/-- A tick in Running whose fetch or decode raises an error halts the core, and the step changes nothing else of it. -/
theorem step_of_fetchExecute_raise {kind : ErrorKind} {opcode : Option Word} {addr : Option Nat}
    (hrun : s.run = .running) (htick : s.TicksNext) (h : fetchExecute s = .next (raise kind opcode addr s)) :
    ∃ t, step s = .next t ∧ t.run = .halted { kind := kind, opcode := opcode, pc := s.pc, addr := addr } ∧
      SameExcept (fun p => p = .run ∨ p = .events ∨ p = .draws) s t := by
  refine ⟨(raise kind opcode addr s).consume, step_eq_next_iff.2 ⟨_, ?_, rfl⟩, rfl, ?_⟩
  · rw [applyEvent_of_ticksNext htick, instrTick_of_running hrun, h]
  · exact (sameExcept_raise kind opcode addr (.inl rfl)).trans ((sameCore_consume _).mono fun _ => .inr)

end Halt

/-! ## The obligations -/

/-- Settles O2: the decoder reads back every digit the encoder wrote. -/
theorem decodeOfEncodeIsTheInstruction : Obligations.DecodeOfEncodeIsTheInstruction := fun _ => decode_encode

/-- Settles O3: each arm of the decoder fixes the digits its instruction does not carry as operands. -/
theorem encodeOfDecodeIsTheOpcode : Obligations.EncodeOfDecodeIsTheOpcode := by
  intro w i h
  have hexact := decode_exact w
  rwa [h] at hexact

/-- Settles O6: the word at PC is the fetched one, and the tick that cannot decode it raises the error. -/
theorem unknownOpcodeHaltsWithTheRawOpcode : Obligations.UnknownOpcodeHaltsWithTheRawOpcode := by
  intro s w hrun htick hpc hw hnone
  obtain rfl : w = fetchOpcode s := BitVec.eq_of_toNat_eq (hw.trans (toNat_fetchOpcode s).symm)
  cases hd : decode (fetchOpcode s) with
  | ok i => exact absurd hd (hnone i)
  | error r =>
    obtain ⟨t, hstep, ht, hsame⟩ := step_of_fetchExecute_raise hrun htick (fetchExecute_of_unknown hpc hd)
    exact ⟨t, hstep, ht, by rw [ht]; rfl, hsame⟩

/-- Settles O7: the range check of the fetch fails, and the lowest byte of the fetch above 0xFFF is reported. -/
theorem fetchAboveMemoryHalts : Obligations.FetchAboveMemoryHalts := by
  intro s hrun htick hpc
  have haddr : (if s.pc.toNat = 0xFFF then 0x1000 else s.pc.toNat) = max s.pc.toNat 0x1000 := by
    split <;> omega
  rw [haddr]
  exact step_of_fetchExecute_raise hrun htick (fetchExecute_of_outside hpc)

/-- Settles O1 by running the decoder on the sixteen words. -/
theorem sampleWordsDecode : Obligations.SampleWordsDecode := by
  unfold Obligations.SampleWordsDecode
  decide

end Sys2Proof.Machine

/-! SUPPORT. The control-flow family: where jumps, calls, returns and register skips leave PC, and their frames -/

namespace Sys2Proof.Machine

theorem toNat_zextNNN (nnn : Addr12) : (zextNNN nnn).toNat = nnn.toNat :=
  BitVec.toNat_setWidth_of_le (by decide)

/-! ## Frames of the call stack (R28, R29) -/

section StackFrames

variable {W : Part → Prop} {s : State}

theorem sameExcept_push (k : Fin 16) (w : Word) (hsp : W .sp) (hentry : W (.stackEntry k)) :
    SameExcept W s { s with stack := s.stack.set k w, sp := k.succ } := by
  intro p hp
  cases p with
  | sp => exact absurd hsp hp
  | stackEntry j => exact stack_set_of_ne s.stack w fun hjk : j = k => hp (hjk ▸ hentry)
  | _ => rfl

theorem sameExcept_pop (k : Fin 16) (hsp : W .sp) : SameExcept W s { s with sp := k.castSucc } := by
  intro p hp
  cases p with
  | sp => exact absurd hsp hp
  | _ => rfl

end StackFrames

/-! ## Skips (R100) -/

/-- A skip on `c` leaves PC at the fetch address + 4 or + 2, and nothing else changes. -/
theorem skip_answers (s : State) (c : Prop) [Decidable c] :
    ∃ t, (.next (s.advance.skipWhen (decide c)) : Result) = .next t ∧ t.pc = (if c then s.pc + 4 else s.pc + 2) ∧
      SameExcept (fun p => p = .pc) s t := by
  refine ⟨_, rfl, ?_, .trans (sameExcept_advance rfl) (sameExcept_skipWhen _ rfl)⟩
  have hskip : s.pc + 2 + 2 = s.pc + 4 := BitVec.add_assoc s.pc 2 2
  simp only [skipWhen_pc, advance_pc, hskip, decide_eq_true_eq]

/-- A skip on the negation of `c`: the two new values of PC change places. -/
theorem skip_not_answers (s : State) (c : Prop) [Decidable c] :
    ∃ t, (.next (s.advance.skipWhen (decide ¬c)) : Result) = .next t ∧ t.pc = (if c then s.pc + 2 else s.pc + 4) ∧
      SameExcept (fun p => p = .pc) s t := by
  simpa only [ite_not] using skip_answers s (¬c)

/-! ## The obligations -/

/-- Settles O13: with room the call writes one stack entry, SP and PC; on a full stack it raises the error. -/
theorem callPushesThePostFetchPc : Obligations.CallPushesThePostFetchPc := by
  refine fun nnn s => ⟨fun k hk => ?_, fun hfull => ?_⟩
  · refine ⟨_, execCall_of_room nnn s k hk, toNat_zextNNN nnn, congrArg (· + 1) hk, Vector.getElem_set_self _, ?_⟩
    exact .trans (sameExcept_push k (s.pc + 2) (.inr (.inl rfl)) (.inr (.inr rfl))) (sameExcept_setPc _ (.inl rfl))
  · exact ⟨_, execCall_of_full nnn s hfull, rfl, rfl, sameExcept_raise _ _ _ rfl⟩

/-- Settles O14: with an entry the return writes SP and PC, and the entry stays (D21); on an empty stack it raises the
error. -/
theorem returnPopsTheTopEntry : Obligations.ReturnPopsTheTopEntry := by
  refine fun s => ⟨fun k hk => ?_, fun hempty => ?_⟩
  · refine ⟨_, execRet_of_entry s k hk, rfl, rfl, ?_⟩
    exact .trans (sameExcept_pop k (.inr rfl)) (sameExcept_setPc _ (.inl rfl))
  · exact ⟨_, execRet_of_empty s hempty, rfl, rfl, sameExcept_raise _ _ _ rfl⟩

/-- Settles O12: the jump overwrites the advanced PC, so PC is all it changes. -/
theorem jumpSetsPcToTheAddress : Obligations.JumpSetsPcToTheAddress := fun nnn _ =>
  ⟨_, rfl, toNat_zextNNN nnn, .trans (sameExcept_advance rfl) (sameExcept_setPc _ rfl)⟩

/-- Settles O16: SE skips on its comparison, SNE on the negation of it. -/
theorem skipsCompareRegisters : Obligations.SkipsCompareRegisters := fun x y nn s =>
  ⟨skip_answers s (s.getV x = nn), skip_not_answers s (s.getV x = nn),
    skip_answers s (s.getV x = s.getV y), skip_not_answers s (s.getV x = s.getV y)⟩

end Sys2Proof.Machine

/-! SUPPORT. The register arithmetic family: results and flags as numbers, and the two orders in which an instruction
writes a register and VF -/

namespace Sys2Proof.Machine

/-! ## Results and flags as numbers (R11, R132, R133) -/

section Numbers

variable (a b : Byte)

theorem toNat_flagByte (c : Bool) : (flagByte c).toNat = c.toNat := by
  cases c <;> rfl

theorem toNat_flagByte_decide (p : Prop) [Decidable p] : (flagByte (decide p)).toNat = if p then 1 else 0 :=
  (toNat_flagByte _).trans (Bool.cond_decide p 1 0)

theorem toNat_addByte : (addByte a b).toNat = (a.toNat + b.toNat) % 256 := BitVec.toNat_ofNat _ _

theorem toNat_carryFlag : (carryFlag a b).toNat = if a.toNat + b.toNat > 255 then 1 else 0 := toNat_flagByte_decide _

/-- The exact difference is an integer; the obligations count it from 256 up. -/
theorem toNat_subByte : (subByte a b).toNat = (256 + a.toNat - b.toNat) % 256 := by
  have hb := b.isLt
  rw [subByte, BitVec.toNat_ofInt]
  omega

theorem toNat_notBorrowFlag : (notBorrowFlag a b).toNat = if b.toNat > a.toNat then 0 else 1 := by
  rw [notBorrowFlag, toNat_flagByte_decide, ← ite_not]
  simp only [Nat.not_le]

theorem toNat_shrByte : (shrByte a).toNat = a.toNat / 2 := by
  rw [shrByte, BitVec.toNat_ushiftRight, Nat.shiftRight_eq_div_pow, Nat.pow_one]

theorem toNat_shrFlag : (shrFlag a).toNat = a.toNat % 2 := by
  rw [shrFlag, toNat_flagByte, BitVec.getLsbD, Nat.toNat_testBit, Nat.pow_zero, Nat.div_one]

theorem toNat_shlByte : (shlByte a).toNat = 2 * a.toNat % 256 := by
  rw [shlByte, BitVec.toNat_shiftLeft, Nat.shiftLeft_eq, Nat.pow_one, Nat.mul_comm]

/-- Bit 7 is the top bit, so nothing is left above it. -/
theorem toNat_shlFlag : (shlFlag a).toNat = a.toNat / 128 := by
  have ha := a.isLt
  rw [shlFlag, toNat_flagByte, BitVec.getLsbD, Nat.toNat_testBit]
  omega

end Numbers

/-! ## What an instruction that writes registers answers -/

section Answers

variable (s : State) (x : Reg)

theorem sameExcept_advance_setV (b : Byte) :
    SameExcept (fun p => p = .pc ∨ p = .reg x) s (s.advance.setV x b) :=
  (sameExcept_advance (.inl rfl)).trans (sameExcept_setV b (.inr rfl))

/-- One register is written, with a byte known by its bits. -/
theorem bitwise_answers {b : Byte} {f : Nat → Bool} (hb : ∀ k, b.getLsbD k = f k) :
    ∃ t, (.next (s.advance.setV x b) : Result) = .next t ∧ t.pc = s.pc + 2 ∧
      (∀ k < 8, (t.getV x).getLsbD k = f k) ∧ SameExcept (fun p => p = .pc ∨ p = .reg x) s t := by
  refine ⟨_, rfl, rfl, fun k _ => ?_, sameExcept_advance_setV s x b⟩
  rw [getV_setV_self, hb]

/-- V[X] is written first and VF last, so VF holds the flag even with X = F (D6). -/
theorem flagLast_answers {b flag : Byte} {m n : Nat} (hb : b.toNat = m) (hflag : flag.toNat = n) :
    ∃ t, (.next ((s.advance.setV x b).setV vf flag) : Result) = .next t ∧
      (x ≠ vf → (t.getV x).toNat = m) ∧ (t.getV vf).toNat = n ∧ t.pc = s.pc + 2 ∧
      SameExcept (fun p => p = .pc ∨ p = .reg x ∨ p = .reg vf) s t := by
  refine ⟨_, rfl, fun hx => ?_, ?_, rfl, ?_⟩
  · rw [getV_setV_of_ne _ _ hx.symm, getV_setV_self, hb]
  · rw [getV_setV_self, hflag]
  · exact (sameExcept_advance (.inl rfl)).trans <|
      (sameExcept_setV b (.inr (.inl rfl))).trans (sameExcept_setV flag (.inr (.inr rfl)))

/-- VF is written first and V[X] last, so V[X] holds the result even with X = F (D6). -/
theorem resultLast_answers {b flag : Byte} {m n : Nat} (hb : b.toNat = m) (hflag : flag.toNat = n) :
    ∃ t, (.next ((s.advance.setV vf flag).setV x b) : Result) = .next t ∧
      (t.getV x).toNat = m ∧ (x ≠ vf → (t.getV vf).toNat = n) ∧ t.pc = s.pc + 2 ∧
      SameExcept (fun p => p = .pc ∨ p = .reg x ∨ p = .reg vf) s t := by
  refine ⟨_, rfl, ?_, fun hx => ?_, rfl, ?_⟩
  · rw [getV_setV_self, hb]
  · rw [getV_setV_of_ne _ _ hx, getV_setV_self, hflag]
  · exact (sameExcept_advance (.inl rfl)).trans <|
      (sameExcept_setV flag (.inr (.inr rfl))).trans (sameExcept_setV b (.inr (.inl rfl)))

end Answers

/-! ## The obligations -/

/-- Settles O20: the carry is written after the sum. -/
theorem addRegistersSetsCarry : Obligations.AddRegistersSetsCarry := fun x y s =>
  flagLast_answers s x (toNat_addByte (s.getV x) (s.getV y)) (toNat_carryFlag (s.getV x) (s.getV y))

/-- Settles O21: SUB and SUBN subtract in opposite orders, and both write the flag after the difference. -/
theorem subtractSetsNotBorrow : Obligations.SubtractSetsNotBorrow := fun x y s =>
  ⟨flagLast_answers s x (toNat_subByte (s.getV x) (s.getV y)) (toNat_notBorrowFlag (s.getV x) (s.getV y)),
    flagLast_answers s x (toNat_subByte (s.getV y) (s.getV x)) (toNat_notBorrowFlag (s.getV y) (s.getV x))⟩

/-- Settles O22: the shifted value is written after the bit shifted out, and Y is not read. -/
theorem shiftsMoveTheLostBitToVF : Obligations.ShiftsMoveTheLostBitToVF := fun x _ s =>
  ⟨resultLast_answers s x (toNat_shrByte (s.getV x)) (toNat_shrFlag (s.getV x)),
    resultLast_answers s x (toNat_shlByte (s.getV x)) (toNat_shlFlag (s.getV x))⟩

/-- Settles O17: both loads write V[X] alone, once. -/
theorem loadsSetTheRegister : Obligations.LoadsSetTheRegister := fun x y nn s =>
  ⟨⟨_, rfl, getV_setV_self s.advance x nn, rfl, sameExcept_advance_setV s x nn⟩,
    ⟨_, rfl, getV_setV_self s.advance x (s.getV y), rfl, sameExcept_advance_setV s x (s.getV y)⟩⟩

/-- Settles O18: V[X] is all that the addition writes, so VF keeps its value unless X = F. -/
theorem addImmediateWrapsWithoutFlag : Obligations.AddImmediateWrapsWithoutFlag := by
  refine fun x nn s => ⟨_, rfl, ?_, rfl, sameExcept_advance_setV s x _⟩
  rw [getV_setV_self, toNat_addByte]

/-- Settles O19: the three results bit by bit, each written to V[X] alone. -/
theorem logicIsBitwiseAndKeepsVF : Obligations.LogicIsBitwiseAndKeepsVF := fun x _ s =>
  ⟨bitwise_answers s x fun _ => BitVec.getLsbD_or, bitwise_answers s x fun _ => BitVec.getLsbD_and,
    bitwise_answers s x fun _ => BitVec.getLsbD_xor⟩

/-- Settles O23: the mask of the tick's random byte, bit by bit. -/
theorem randomIsMasked : Obligations.RandomIsMasked := fun x _ s =>
  bitwise_answers s x fun _ => BitVec.getLsbD_and

end Sys2Proof.Machine

/-! SUPPORT. The index and memory family: what the transfers between the registers and memory read and write -/

namespace Sys2Proof.Machine

/-! ## The index as a number (R150, R151) -/

theorem toNat_addIndex (i : Word) (a : Byte) : (addIndex i a).toNat = (i.toNat + a.toNat) % 65536 :=
  BitVec.toNat_ofNat _ _

theorem toNat_indexFlag (i : Word) (a : Byte) : (indexFlag i a).toNat = if i.toNat + a.toNat > 0xFFF then 1 else 0 :=
  toNat_flagByte_decide _

/-! ## Storing consecutive bytes at I (R152, R153) -/

section Store

variable {x : Reg} {s : State}

theorem sameExcept_store {W : Part → Prop} (bytes : List Byte) (hpc : W .pc)
    (hbytes : ∀ a, s.base ≤ a → a < s.base + bytes.length → W (.byte a)) :
    SameExcept W s (s.advance.setMem (s.mem.writeBytes s.base bytes)) :=
  (sameExcept_advance hpc).trans <| sameExcept_setMem _ fun a ha =>
    Memory.read_writeBytes_outside s.mem <| by
      by_contra hout
      exact ha (hbytes a (by omega) (by omega))

theorem exec_ldBVx_of_inside (h : s.base + 2 ≤ 0xFFF) :
    exec (.ldBVx x) s = .next (s.advance.setMem (s.mem.writeBytes s.base (bcdDigits (s.getV x)))) :=
  guardRange_of_inside _ _ _ (.inr (by omega))

/-- Every digit fits in a byte, so storing it as one loses nothing. -/
theorem map_toNat_bcdDigits (a : Byte) :
    (bcdDigits a).map BitVec.toNat = [a.toNat / 100, a.toNat / 10 % 10, a.toNat % 10] := by
  have ha := a.isLt
  simp only [bcdDigits, List.map_cons, List.map_nil, BitVec.toNat_ofNat, List.cons.injEq, and_true]
  omega

/-- Digit `k` stands at `base + k`. -/
theorem toNat_read_storedDigits {k : Nat} (a : Byte) (hwf : s.mem.wf = true) (h : s.base + 2 ≤ 0xFFF) (hk : k < 3) :
    ((s.mem.writeBytes s.base (bcdDigits a)).read (s.base + k)).toNat
      = [a.toNat / 100, a.toNat / 10 % 10, a.toNat % 10][k] := by
  have hin : s.base + (bcdDigits a).length ≤ Config.memSize := Nat.succ_le_succ h
  have hlen : k < (bcdDigits a).length := hk
  rw [Memory.read_writeBytes_inside hwf hin hlen]
  simp only [← map_toNat_bcdDigits, List.getElem_map]

end Store

/-! ## The load of FX65 (R154) -/

theorem exec_ldVxMem_of_inside {x : Reg} {s : State} (h : s.base + x.val ≤ 0xFFF) :
    exec (.ldVxMem x) s
      = .next { s.advance with v := loadRegs s.v 0 (s.mem.readBytes s.base (x.val + 1)) } :=
  guardRange_of_inside _ _ _ (.inr (by omega))

theorem getElem_loadRegs_readBytes (v : Vector Byte 16) (m : Memory) (base : Nat) {x k : Reg} (hk : k ≤ x) :
    (loadRegs v 0 (m.readBytes base (x.val + 1)))[k] = m.read (base + k.val) := by
  have hreach : 0 ≤ k.val ∧ k.val < 0 + (m.readBytes base (x.val + 1)).length := by
    simpa [Nat.lt_succ_iff] using hk
  rw [getElem_loadRegs, dif_pos hreach, Memory.getElem_readBytes, Nat.sub_zero]

/-! ## The obligations -/

/-- Settles O25: the flag is written after the index, from the operands as they were. -/
theorem addToIndexFlagsAboveMemory : Obligations.AddToIndexFlagsAboveMemory := by
  refine fun x s => ⟨_, rfl, toNat_addIndex s.index (s.getV x), ?_, rfl, ?_⟩
  · rw [getV_setV_self, toNat_indexFlag]
  · exact (sameExcept_advance (.inl rfl)).trans <|
      (sameExcept_setIndex _ (.inr (.inl rfl))).trans (sameExcept_setV _ (.inr (.inr rfl)))

/-- Settles O26: the three digits are the bytes stored, and the store reaches no other address. -/
theorem bcdStoresTheDigits : Obligations.BcdStoresTheDigits := by
  intro x s hwf hin
  have hdigit {k : Nat} (hk : k < 3) := toNat_read_storedDigits (s.getV x) hwf hin hk
  exact ⟨_, exec_ldBVx_of_inside hin, hdigit (k := 0) (by decide), hdigit (k := 1) (by decide),
    hdigit (k := 2) (by decide), rfl, sameExcept_store _ (.inl rfl) fun a hlo hhi => .inr ⟨a, hlo, hhi, rfl⟩⟩

/-- Settles O27: the registers are the bytes stored, and the store reaches no other address. -/
theorem storeRegistersFillsMemory : Obligations.StoreRegistersFillsMemory := by
  refine fun x s hwf hin => ⟨_, exec_ldMemVx_of_inside hin, fun k hk => read_storedRegs hwf hin hk, rfl,
    sameExcept_store _ (.inl rfl) fun a hlo hhi => .inr ⟨a, hlo, ?_, rfl⟩⟩
  rw [length_regsUpTo] at hhi
  omega

/-- Settles O28: register `k` receives the byte at I + k, and the frame of the load is the one stated. -/
theorem loadRegistersReadsMemory : Obligations.LoadRegistersReadsMemory := fun x s hin =>
  ⟨_, exec_ldVxMem_of_inside hin, fun _ hk => getElem_loadRegs_readBytes s.v s.mem s.base hk, rfl,
    (load_completes x s).frame⟩

/-- Settles O29: the store leaves I alone, so the load reads the bytes just stored into the registers they came from; no
other part is written but PC and those bytes. -/
theorem storeThenLoadRestoresRegisters : Obligations.StoreThenLoadRestoresRegisters := by
  intro x s hwf hin
  obtain ⟨t, ht, hstored, hpc, hstore⟩ := storeRegistersFillsMemory x s hwf hin
  have hbase : t.base = s.base := congrArg BitVec.toNat (hstore .index (by simp))
  obtain ⟨u, hu, hloaded, hpc', hload⟩ := loadRegistersReadsMemory x t (hbase ▸ hin)
  refine ⟨t, u, ht, hu, ?_, fun p hp => ?_⟩
  · rw [hpc', hpc]
    exact BitVec.add_assoc s.pc 2 2
  · by_cases hreg : ∃ k : Reg, k ≤ x ∧ p = .reg k
    · obtain ⟨k, hk, rfl⟩ := hreg
      show u.getV k = s.getV k
      rw [hloaded k hk, hbase, hstored k hk]
    · exact (hstore p hp).trans (hload p (not_or.2 ⟨fun hpc => hp (.inl hpc), hreg⟩))

/-- Settles O24: the index is all that the load writes beside PC. -/
theorem loadIndexSetsTheAddress : Obligations.LoadIndexSetsTheAddress := fun nnn _ =>
  ⟨_, rfl, toNat_zextNNN nnn, rfl, (sameExcept_advance (.inl rfl)).trans (sameExcept_setIndex _ (.inr rfl))⟩

end Sys2Proof.Machine

/-! SUPPORT. The display family: a draw as one list of turns on distinct cells, its closed form, and what the two display
instructions answer -/

namespace Sys2Proof.Machine

/-! ## The turns of a draw (R171)

The two loops of a draw are one fold over the list of their turns. -/

/-- A turn of the inner loop: a sprite byte, its row in the sprite, and a column. -/
abbrev Turn := (Byte × Nat) × Nat

section Turns

variable (x y : Byte)

/-- The turns of a draw, in the order of the loops. -/
def drawTurns (bytes : List Byte) : List Turn := bytes.zipIdx ×ˢ List.range 8

/-- The cell a turn touches. -/
def turnCell (t : Turn) : Fin 32 × Fin 64 := (spriteRow y t.1.2, spriteCol x t.2)

/-- The source bit of a turn. -/
def turnBit (t : Turn) : Bool := spriteBit t.1.1 t.2

/-- A turn run by the model's inner loop. -/
def runTurn (p : Framebuffer × Bool) (t : Turn) : Framebuffer × Bool := drawCell x y t.1.2 t.1.1 p t.2

/-- Some turn meets the cell with source bit 1. -/
def lights (ts : List Turn) (row : Fin 32) (col : Fin 64) : Bool :=
  ts.any fun t => decide ((row, col) = turnCell x y t) && turnBit t

theorem drawRows_eq_foldl (r : Nat) (bytes : List Byte) (p : Framebuffer × Bool) :
    drawRows x y r bytes p = (bytes.zipIdx r ×ˢ List.range 8).foldl (runTurn x y) p := by
  induction bytes generalizing r p with
  | nil => rfl
  | cons b rest ih =>
    rw [drawRows, ih, List.zipIdx_cons, List.product_cons, List.foldl_append, List.foldl_map]
    rfl

theorem draw_eq_foldl (fb : Framebuffer) (bytes : List Byte) :
    draw fb x y bytes = (drawTurns bytes).foldl (runTurn x y) (fb, false) :=
  drawRows_eq_foldl x y 0 bytes (fb, false)

theorem mem_drawTurns {bytes : List Byte} {b : Byte} {r c : Nat} :
    ((b, r), c) ∈ drawTurns bytes ↔ bytes[r]? = some b ∧ c < 8 :=
  List.pair_mem_product.trans (and_congr List.mk_mem_zipIdx_iff_getElem? List.mem_range)

variable {x y}

theorem spriteRow_inj {r r' : Nat} (hr : r < 32) (hr' : r' < 32) (h : spriteRow y r = spriteRow y r') : r = r' := by
  have hval : (y.toNat + r) % 32 = (y.toNat + r') % 32 := congrArg Fin.val h
  omega

theorem spriteCol_inj {c c' : Nat} (hc : c < 64) (hc' : c' < 64) (h : spriteCol x c = spriteCol x c') : c = c' := by
  have hval : (x.toNat + c) % 64 = (x.toNat + c') % 64 := congrArg Fin.val h
  omega

/-- A sprite of at most 15 rows and 8 columns does not wrap onto itself: no two turns touch the same cell. -/
theorem nodup_turnCells {bytes : List Byte} (h : bytes.length ≤ 15) :
    ((drawTurns bytes).map (turnCell x y)).Nodup := by
  refine List.Nodup.map_on ?_ ((List.nodup_zipIdx_map_snd bytes).of_map.product List.nodup_range)
  rintro ⟨⟨b, r⟩, c⟩ ht ⟨⟨b', r'⟩, c'⟩ ht' hcell
  obtain ⟨hb, hc⟩ := mem_drawTurns.1 ht
  obtain ⟨hb', hc'⟩ := mem_drawTurns.1 ht'
  obtain ⟨hr, -⟩ := List.getElem?_eq_some_iff.1 hb
  obtain ⟨hr', -⟩ := List.getElem?_eq_some_iff.1 hb'
  obtain ⟨hrow, hcol⟩ := Prod.mk.inj hcell
  obtain rfl := spriteRow_inj (r := r) (r' := r') (by omega) (by omega) hrow
  obtain rfl := spriteCol_inj (c := c) (c' := c') (by omega) (by omega) hcol
  obtain rfl : b = b' := Option.some.inj (hb.symm.trans hb')
  rfl

end Turns

/-! ## The closed form of a draw (R171, R173)

A draw XORs `lights` onto the framebuffer, and collides iff `lights` meets a lit cell. Both rest on the turns touching
distinct cells: each turn then finds its cell as it was before the draw. -/

section ClosedForm

variable {x y : Byte} {row : Fin 32} {col : Fin 64}

theorem lights_cons (t : Turn) (ts : List Turn) :
    lights x y (t :: ts) row col
      = (decide ((row, col) = turnCell x y t) && turnBit t || lights x y ts row col) := rfl

theorem lights_eq_true_iff {ts : List Turn} :
    lights x y ts row col = true ↔ ∃ t ∈ ts, (row, col) = turnCell x y t ∧ turnBit t = true := by
  simp [lights]

theorem lights_eq_false_of_not_mem {ts : List Turn} (h : (row, col) ∉ ts.map (turnCell x y)) :
    lights x y ts row col = false := by
  rw [Bool.eq_false_iff, Ne, lights_eq_true_iff]
  rintro ⟨t, ht, hcell, -⟩
  exact h (hcell ▸ List.mem_map_of_mem ht)

theorem cell_runTurn (p : Framebuffer × Bool) (t : Turn) :
    Framebuffer.cell (runTurn x y p t).1 row col
      = (Framebuffer.cell p.1 row col ^^ (decide ((row, col) = turnCell x y t) && turnBit t)) := by
  simp only [runTurn, drawCell_cell, turnCell, turnBit, Prod.mk.injEq]

theorem collision_runTurn (p : Framebuffer × Bool) (t : Turn) :
    (runTurn x y p t).2 = (p.2 || (Framebuffer.cell p.1 (turnCell x y t).1 (turnCell x y t).2 && turnBit t)) :=
  drawCell_collision x y t.1.2 t.1.1 p t.2

theorem cell_runTurn_of_ne (p : Framebuffer × Bool) {t : Turn} (h : (row, col) ≠ turnCell x y t) :
    Framebuffer.cell (runTurn x y p t).1 row col = Framebuffer.cell p.1 row col := by
  rw [cell_runTurn, decide_eq_false h, Bool.false_and, Bool.xor_false]

theorem cell_foldl_runTurn {ts : List Turn} (h : (ts.map (turnCell x y)).Nodup) (p : Framebuffer × Bool) :
    Framebuffer.cell (ts.foldl (runTurn x y) p).1 row col = (Framebuffer.cell p.1 row col ^^ lights x y ts row col) := by
  induction ts generalizing p with
  | nil => exact (Bool.xor_false _).symm
  | cons t ts ih =>
    obtain ⟨hnot, hts⟩ := List.nodup_cons.1 h
    rw [List.foldl_cons, ih hts]
    by_cases hcell : (row, col) = turnCell x y t
    · rw [cell_runTurn, lights_cons, lights_eq_false_of_not_mem (hcell ▸ hnot), Bool.xor_false, Bool.or_false]
    · rw [cell_runTurn_of_ne p hcell, lights_cons, decide_eq_false hcell, Bool.false_and, Bool.false_or]

theorem collision_foldl_runTurn {ts : List Turn} (h : (ts.map (turnCell x y)).Nodup) (p : Framebuffer × Bool) :
    (ts.foldl (runTurn x y) p).2 = true ↔ p.2 = true ∨
      ∃ t ∈ ts, Framebuffer.cell p.1 (turnCell x y t).1 (turnCell x y t).2 = true ∧ turnBit t = true := by
  induction ts generalizing p with
  | nil => simp
  | cons t ts ih =>
    obtain ⟨hnot, hts⟩ := List.nodup_cons.1 h
    have hold : ∀ u ∈ ts, Framebuffer.cell (runTurn x y p t).1 (turnCell x y u).1 (turnCell x y u).2
        = Framebuffer.cell p.1 (turnCell x y u).1 (turnCell x y u).2 := fun u hu =>
      cell_runTurn_of_ne p fun hcell => hnot (hcell ▸ List.mem_map_of_mem hu)
    rw [List.foldl_cons, ih hts, List.exists_mem_cons_iff, collision_runTurn, Bool.or_eq_true, Bool.and_eq_true, or_assoc]
    refine or_congr_right (or_congr_right (exists_congr fun u => and_congr_right fun hu => ?_))
    rw [hold u hu]

theorem cell_draw (fb : Framebuffer) {bytes : List Byte} (h : bytes.length ≤ 15) :
    Framebuffer.cell (draw fb x y bytes).1 row col
      = (Framebuffer.cell fb row col ^^ lights x y (drawTurns bytes) row col) := by
  rw [draw_eq_foldl, cell_foldl_runTurn (nodup_turnCells h)]

theorem draw_collides_iff (fb : Framebuffer) {bytes : List Byte} (h : bytes.length ≤ 15) :
    (draw fb x y bytes).2 = true ↔
      ∃ row col, Framebuffer.cell fb row col = true ∧ lights x y (drawTurns bytes) row col = true := by
  rw [draw_eq_foldl, collision_foldl_runTurn (nodup_turnCells h)]
  simp only [Bool.false_eq_true, false_or, lights_eq_true_iff]
  constructor
  · rintro ⟨t, ht, hold, hbit⟩
    exact ⟨_, _, hold, t, ht, rfl, hbit⟩
  · rintro ⟨row, col, hold, t, ht, hcell, hbit⟩
    exact ⟨t, ht, hcell ▸ hold, hbit⟩

theorem lights_drawTurns_iff {bytes : List Byte} :
    lights x y (drawTurns bytes) row col = true ↔ ∃ (r c : Nat) (hr : r < bytes.length), c < 8 ∧
      row = spriteRow y r ∧ col = spriteCol x c ∧ spriteBit bytes[r] c = true := by
  rw [lights_eq_true_iff]
  constructor
  · rintro ⟨⟨⟨b, r⟩, c⟩, ht, hcell, hbit⟩
    obtain ⟨hb, hc⟩ := mem_drawTurns.1 ht
    obtain ⟨hr, rfl⟩ := List.getElem?_eq_some_iff.1 hb
    obtain ⟨hrow, hcol⟩ := Prod.mk.inj hcell
    exact ⟨r, c, hr, hc, hrow, hcol, hbit⟩
  · rintro ⟨r, c, hr, hc, rfl, rfl, hbit⟩
    exact ⟨((bytes[r], r), c), mem_drawTurns.2 ⟨List.getElem?_eq_getElem hr, hc⟩, rfl, hbit⟩

/-- A covered cell has one turn alone, so the bit it meets is that turn's. -/
theorem lights_of_covered {bytes : List Byte} (h : bytes.length ≤ 15) {r c : Nat} (hr : r < bytes.length) (hc : c < 8)
    (hrow : row = spriteRow y r) (hcol : col = spriteCol x c) :
    lights x y (drawTurns bytes) row col = spriteBit bytes[r] c := by
  rw [Bool.eq_iff_iff, lights_drawTurns_iff]
  refine ⟨?_, fun hbit => ⟨r, c, hr, hc, hrow, hcol, hbit⟩⟩
  rintro ⟨r', c', hr', hc', hrow', hcol', hbit⟩
  obtain rfl := spriteRow_inj (by omega) (by omega) (hrow.symm.trans hrow')
  obtain rfl := spriteCol_inj (by omega) (by omega) (hcol.symm.trans hcol')
  exact hbit

end ClosedForm

/-! ## What DXYN reads and answers (R176) -/

theorem spriteBytes_eq_map_range (s : State) (n : Nat) :
    s.spriteBytes n = (List.range n).map fun r => s.mem.read (s.base + r) := by
  refine List.ext_getElem (by simp [State.spriteBytes]) fun r hr _ => ?_
  rw [List.getElem_map, List.getElem_range]
  exact Memory.getElem_readBytes s.mem s.base n r hr

theorem exec_drw_of_inside {x y : Reg} {n : Nat} {s : State} (h : n = 0 ∨ s.base + n - 1 ≤ 0xFFF) :
    exec (.drw x y n) s
      = .next ((s.advance.setFb (draw s.fb (s.getV x) (s.getV y) (s.spriteBytes n)).1).setV vf
          (flagByte (draw s.fb (s.getV x) (s.getV y) (s.spriteBytes n)).2)) :=
  guardRange_of_inside _ _ _ (by omega)

/-! ## The obligations -/

/-- Settles O32: the closed form of a draw, read at a covered cell, at an uncovered one, and for the collision. -/
theorem drawXorsTheSprite : Obligations.DrawXorsTheSprite := by
  intro fb x y bytes h
  refine ⟨fun r c row col hr hc hrow hcol => ?_, fun row col hout => ?_, ?_⟩
  · rw [cell_draw fb h, lights_of_covered h hr hc (Fin.ext hrow) (Fin.ext hcol)]
    rfl
  · refine cell_draw_outside fb bytes fun r hr c hc hcell => hout r c hr hc ?_
    exact ⟨congrArg Fin.val hcell.1, congrArg Fin.val hcell.2⟩
  · rw [draw_collides_iff fb h]
    simp only [lights_drawTurns_iff, Fin.ext_iff]
    constructor
    · rintro ⟨row, col, hold, r, c, hr, hc, hrow, hcol, hbit⟩
      exact ⟨r, c, row, col, hr, hc, hrow, hcol, hold, hbit⟩
    · rintro ⟨r, c, row, col, hr, hc, hrow, hcol, hold, hbit⟩
      exact ⟨row, col, hold, r, c, hr, hc, hrow, hcol, hbit⟩

/-- Settles O33: the same XOR twice cancels, and a cell that the first draw met with source bit 1 is lit for the second
iff it was 0 before. -/
theorem drawTwiceRestoresTheFramebuffer : Obligations.DrawTwiceRestoresTheFramebuffer := by
  intro fb x y bytes h
  refine ⟨framebuffer_ext fun row col => ?_, ?_⟩
  · rw [cell_draw _ h, cell_draw fb h, Bool.xor_assoc, Bool.xor_self, Bool.xor_false]
  · rw [draw_collides_iff _ h]
    refine exists_congr fun row => exists_congr fun col => ?_
    rw [cell_draw fb h]
    cases Framebuffer.cell fb row col <;> simp

/-- Settles O34: inside the address space the meaning is the draw itself, and its frame is the one stated. -/
theorem drawInstructionDrawsFromMemory : Obligations.DrawInstructionDrawsFromMemory := by
  intro x y n s hin
  rw [← spriteBytes_eq_map_range]
  refine ⟨_, exec_drw_of_inside hin, rfl, rfl, getV_setV_self _ _ _, ?_, (draw_completes x y n s).frame.mono ?_⟩
  · rintro rfl
    exact ⟨rfl, getV_setV_self _ _ _⟩
  · rintro p (rfl | rfl | ⟨r, c, hr, hc, rfl⟩)
    · exact .inl rfl
    · exact .inr (.inl rfl)
    · exact .inr (.inr ⟨r, c, _, _, hr, hc, rfl, rfl, rfl⟩)

/-- Settles O31: the framebuffer is all that is written beside PC. -/
theorem clearBlanksEveryCell : Obligations.ClearBlanksEveryCell := fun _ =>
  ⟨_, rfl, cell_cleared, rfl, (sameExcept_advance (.inl rfl)).trans <|
    sameExcept_setFb _ fun row col hrc => absurd (.inr ⟨row, col, rfl⟩) hrc⟩

end Sys2Proof.Machine

/-! SUPPORT. The timer and input family: the key comparison and the countdown as facts about numbers, and what the key
instructions, a timer tick and a key event answer -/

namespace Sys2Proof.Machine

/-! ## Keys and the delay timer as numbers (R190, R194, R197) -/

/-- The tick's key state is a key whose code is the whole byte `a` (D17, D29). -/
abbrev State.TickKeyIs (s : State) (a : Byte) : Prop := ∃ k, s.lastKey = some k ∧ k.val = a.toNat

theorem keyMatches_lastKey (s : State) (a : Byte) : keyMatches s.lastKey a = decide (s.TickKeyIs a) := by
  unfold State.TickKeyIs
  cases s.lastKey with
  | none => simp [keyMatches]
  | some k => simp [keyMatches]

/-- A key code fits in a byte, so storing it as one loses nothing. -/
theorem toNat_keyByte (k : Key) : (keyByte k).toNat = k.val :=
  (BitVec.toNat_ofNat _ _).trans (Nat.mod_eq_of_lt (k.isLt.trans (by decide)))

/-- Truncated subtraction stops at 0, as DT does. -/
theorem toNat_countDown (b : Byte) : (if b = 0 then b else b - 1).toNat = b.toNat - 1 := by
  split <;> bv_omega

/-! ## What the key skips and an idle event answer (R190, R191, R198) -/

theorem exec_skp (x : Reg) (s : State) :
    exec (.skp x) s = .next (s.advance.skipWhen (decide (s.TickKeyIs (s.getV x)))) := by
  rw [← keyMatches_lastKey]
  rfl

theorem exec_sknp (x : Reg) (s : State) :
    exec (.sknp x) s = .next (s.advance.skipWhen (decide ¬s.TickKeyIs (s.getV x))) := by
  rw [decide_not, ← keyMatches_lastKey]
  rfl

theorem SameExcept.refl (W : Part → Prop) (s : State) : SameExcept W s s := by
  intro p _
  cases p <;> rfl

/-! ## The obligations -/

/-- Settles O37: EX9E skips on the comparison and EXA1 on its negation; with no key or another key the comparison
fails. -/
theorem keySkipsCompareTheWholeByte : Obligations.KeySkipsCompareTheWholeByte := by
  intro x s
  have hother (h : ∀ k, s.lastKey = some k → k.val ≠ (s.getV x).toNat) : ¬s.TickKeyIs (s.getV x) :=
    fun ⟨k, hk, heq⟩ => h k hk heq
  rw [exec_skp, exec_sknp]
  obtain ⟨t, ht, htpc, htsame⟩ := skip_answers s (s.TickKeyIs (s.getV x))
  obtain ⟨u, hu, hupc, husame⟩ := skip_not_answers s (s.TickKeyIs (s.getV x))
  exact ⟨⟨t, ht, fun h => htpc.trans (if_pos h), fun h => htpc.trans (if_neg (hother h)), htsame⟩,
    ⟨u, hu, fun h => hupc.trans (if_pos h), fun h => hupc.trans (if_neg (hother h)), husame⟩⟩

/-- Settles O40: in Running DT is all that the tick writes, and elsewhere it writes nothing (D13, D14). -/
theorem timerTickCountsDown : Obligations.TimerTickCountsDown := by
  intro s
  by_cases hrun : s.run = .running
  · refine ⟨_, timerTick_of_running hrun, ?_, sameExcept_setDt _ rfl⟩
    simp only [setDt_dt, toNat_countDown, hrun, true_and]
    split <;> omega
  · exact ⟨s, timerTick_of_not_running hrun, (if_neg (mt And.left hrun)).symm, .refl _ s⟩

/-- Settles O36: one instruction copies DT to V[X] and the other V[X] to DT. -/
theorem delayTimerIsReadAndSet : Obligations.DelayTimerIsReadAndSet := fun x s =>
  ⟨⟨_, rfl, getV_setV_self s.advance x s.dt, rfl, sameExcept_advance_setV s x s.dt⟩,
    ⟨_, rfl, rfl, rfl, (sameExcept_advance (.inl rfl)).trans (sameExcept_setDt _ (.inr rfl))⟩⟩

/-- Settles O38: RUN is all that the instruction writes beside PC, and it does not read the key state (D15). -/
theorem keyWaitBegins : Obligations.KeyWaitBegins := fun _ _ =>
  ⟨_, rfl, rfl, rfl, (sameExcept_advance (.inl rfl)).trans (sameExcept_setRun _ (.inr rfl))⟩

/-- Settles O39: the event in the wait writes V[x] and RUN alone, so PC stays past the FX0A that began it. -/
theorem keyEventCompletesTheWait : Obligations.KeyEventCompletesTheWait := by
  refine fun k x s hwait => ⟨_, keyEvent_of_waitKey k hwait, ?_, rfl, ?_⟩
  · rw [getV_setRun, getV_setV_self, toNat_keyByte]
  · exact (sameExcept_setV _ (.inl rfl)).trans (sameExcept_setRun _ (.inr rfl))

/-- Settles O42: Running is no wait, and outside a wait a key event changes nothing (D15). -/
theorem keyEventInRunningIsDropped : Obligations.KeyEventInRunningIsDropped := fun k _ hrun =>
  keyEvent_of_not_waitKey k fun x hwait => by cases hrun.symm.trans hwait

end Sys2Proof.Machine

/-! SUPPORT. The error family: the causes for which an instruction halts a running core, each with its record -/

namespace Sys2Proof.Machine

/-! ## The causes of the errors (R212, R213, R214) -/

/-- A data access of `i` in `s` reaches above 0xFFF (R214 (b) to (d)). -/
def AccessAbove (i : Instr) (s : State) : Prop :=
  (∃ x y n, i = .drw x y n ∧ 0 < n ∧ 0xFFF < s.base + n - 1) ∨ (∃ x, i = .ldBVx x ∧ 0xFFF < s.base + 2) ∨
    (∃ x : Reg, (i = .ldMemVx x ∨ i = .ldVxMem x) ∧ 0xFFF < s.base + x.val)

/-- `i` cannot complete in `s`, and the error to report has this kind and address. -/
def ErrorCause (i : Instr) (s : State) (kind : ErrorKind) (addr : Option Nat) : Prop :=
  (i = .ret ∧ s.sp.val = 0 ∧ kind = .stackUnderflow ∧ addr = none) ∨
    ((∃ nnn, i = .call nnn) ∧ s.sp.val = 16 ∧ kind = .stackOverflow ∧ addr = none) ∨
    (AccessAbove i s ∧ kind = .outOfBoundsAddress ∧ addr = some (max s.base 0x1000))

section Causes

variable {i : Instr} {s t : State} {e : ErrorRecord}

/-- Each of the four accesses is checked whole before its first byte (R155). -/
theorem exec_of_accessAbove (h : AccessAbove i s) :
    exec i s = .next (raise .outOfBoundsAddress (some (encode i)) (some (max s.base 0x1000)) s) := by
  obtain ⟨x, y, n, rfl, hpos, hout⟩ | ⟨x, rfl, hout⟩ | ⟨x, rfl | rfl, hout⟩ := h
  · exact guardRange_of_outside _ _ _ hpos (by omega)
  · exact guardRange_of_outside _ _ _ (by decide) (by omega)
  · exact guardRange_of_outside _ _ _ x.val.succ_pos (by omega)
  · exact guardRange_of_outside _ _ _ x.val.succ_pos (by omega)

/-- A cause is enough: the instruction raises its error. -/
theorem exec_of_errorCause {kind : ErrorKind} {addr : Option Nat} (h : ErrorCause i s kind addr) :
    exec i s = .next (raise kind (some (encode i)) addr s) := by
  obtain ⟨rfl, hempty, rfl, rfl⟩ | ⟨⟨nnn, rfl⟩, hfull, rfl, rfl⟩ | ⟨habove, rfl, rfl⟩ := h
  · exact execRet_of_empty s hempty
  · exact execCall_of_full nnn s hfull
  · exact exec_of_accessAbove habove

/-- A guarded access whose in-range result keeps RUN halts a running core only from outside the range. -/
theorem outside_of_guardRange_halts {base count : Nat} {w : Word} {u : State} (h : guardRange base count w s u = .next t)
    (hrun : s.run = .running) (hhalt : t.run = .halted e) (hu : u.run = s.run) :
    0 < count ∧ 0x1000 < base + count := by
  obtain ⟨-, heq⟩ | ⟨hpos, hout, -⟩ := guardRange_cases base count w s u
  · cases heq.symm.trans h
    cases hrun.symm.trans (hu.symm.trans hhalt)
  · exact ⟨hpos, hout⟩

/-- A cause is needed: without one RUN keeps its value, or FX0A sets it to WaitKey. -/
theorem exists_errorCause_of_halts (h : exec i s = .next t) (hrun : s.run = .running) (hhalt : t.run = .halted e) :
    ∃ kind addr, ErrorCause i s kind addr := by
  cases i with
  | ret =>
    by_cases hempty : s.sp.val = 0
    · exact ⟨_, _, .inl ⟨rfl, hempty, rfl, rfl⟩⟩
    · cases (execRet_of_entry s ⟨s.sp.val - 1, by omega⟩ (by simp only; omega)).symm.trans h
      cases hrun.symm.trans hhalt
  | call nnn =>
    by_cases hroom : s.sp.val < 16
    · cases (execCall_of_room nnn s ⟨s.sp.val, hroom⟩ rfl).symm.trans h
      cases hrun.symm.trans hhalt
    · exact ⟨_, _, .inr (.inl ⟨⟨nnn, rfl⟩, by omega, rfl, rfl⟩)⟩
  | drw x y n =>
    obtain ⟨hpos, hout⟩ := outside_of_guardRange_halts h hrun hhalt rfl
    exact ⟨_, _, .inr (.inr ⟨.inl ⟨x, y, n, rfl, hpos, by omega⟩, rfl, rfl⟩)⟩
  | ldBVx x =>
    obtain ⟨-, hout⟩ := outside_of_guardRange_halts h hrun hhalt rfl
    exact ⟨_, _, .inr (.inr ⟨.inr (.inl ⟨x, rfl, by omega⟩), rfl, rfl⟩)⟩
  | ldMemVx x =>
    obtain ⟨-, hout⟩ := outside_of_guardRange_halts h hrun hhalt rfl
    exact ⟨_, _, .inr (.inr ⟨.inr (.inr ⟨x, .inl rfl, by omega⟩), rfl, rfl⟩)⟩
  | ldVxMem x =>
    obtain ⟨-, hout⟩ := outside_of_guardRange_halts h hrun hhalt rfl
    exact ⟨_, _, .inr (.inr ⟨.inr (.inr ⟨x, .inr rfl, by omega⟩), rfl, rfl⟩)⟩
  | ldVxK x => cases h; cases hhalt
  | _ => cases h; cases hrun.symm.trans hhalt

end Causes

/-! ## The obligations -/

/-- Settles O10: a halt has a cause, and the cause fixes the state the instruction answers (D10, D11). -/
theorem errorsOfTheInstructions : Obligations.ErrorsOfTheInstructions := by
  intro i s t e h hrun hhalt
  obtain ⟨kind, addr, hcause⟩ := exists_errorCause_of_halts h hrun hhalt
  cases (exec_of_errorCause hcause).symm.trans h
  cases hhalt
  exact ⟨rfl, rfl, sameExcept_raise _ _ _ rfl, hcause⟩

/-- Settles O11: the access raises its error, and an error writes RUN alone (D10). -/
theorem accessAboveMemoryHalts : Obligations.AccessAboveMemoryHalts := fun _ _ habove =>
  ⟨_, exec_of_accessAbove habove, rfl, sameExcept_raise _ _ _ rfl⟩

/-- Settles O8: an instruction that completes and one that raises an error both answer a next state (log 10). -/
theorem everyInstructionAnswersANextState : Obligations.EveryInstructionAnswersANextState := fun i s =>
  (exec_ends i s).imp fun _ => And.left

end Sys2Proof.Machine

/-! SUPPORT. The reset family: what a read of the reset memory returns, and when a Reset has a transition -/

namespace Sys2Proof.Machine

/-! ## Reads of the reset memory (R46, R241) -/

namespace Memory

/-- A memory appended behind another is not seen at an address where it reads 0x00. -/
theorem read_append_of_right_eq_zero (m : Memory) {m' : Memory} {a : Nat} (h : m'.read a = 0) :
    read (m ++ m') a = m.read a := by
  induction m with
  | nil => exact h
  | cons c rest ih => simp only [List.cons_append, read, ih]

theorem ne_zero_of_mem_ofBytes {a : Nat} {bs : List Byte} {c : Host.Cell} (h : c ∈ ofBytes a bs) : c.2 ≠ 0 := by
  induction bs generalizing a with
  | nil => cases h
  | cons b rest ih =>
    unfold ofBytes at h
    split at h
    · exact ih h
    · rename_i hb
      obtain rfl | hrest := List.mem_cons.1 h
      · exact hb
      · exact ih hrest

/-- Below 0x200 LOW_IMAGE is read: the ROM holds nothing there. -/
theorem read_resetMemory_low (rom : List Byte) (low : Vector Byte 512) (a : Fin 512) :
    (resetMemory rom low).read a.val = low[a] := by
  have hrom : (ofBytes Config.loadAddr rom).read a.val = 0 := read_ofBytes_outside (.inl a.isLt)
  have hlow := read_ofBytes_inside (a := 0) (bs := low.toList) (k := a.val) (by simp)
  rw [resetMemory, read_append_of_right_eq_zero _ hrom]
  simpa using hlow

/-- From 0x200 on the ROM is read: LOW_IMAGE holds nothing there. -/
theorem read_resetMemory_high (rom : List Byte) (low : Vector Byte 512) {a : Nat} (h : 0x200 ≤ a) :
    (resetMemory rom low).read a = (ofBytes Config.loadAddr rom).read a :=
  read_append a (read_ofBytes_outside (.inr (by simpa using h))) fun _ => ne_zero_of_mem_ofBytes

end Memory

/-! ## The Reset event (R240, R242) -/

section Reset

variable {rom : List Byte} (low : Vector Byte 512) (s : State)

theorem applyEvent_reset_of_fits (h : rom.length ≤ 3584) :
    applyEvent (.reset rom low) s = .next (s.afterReset rom low) := if_pos h

theorem applyEvent_reset_of_oversize (h : 3584 < rom.length) :
    applyEvent (.reset rom low) s = .refused (.romTooLong rom.length) := if_neg (Nat.not_le.2 h)

/-- Reset takes over the environment's list and counter and fills memory; all else is the reset state's (R46, log 20). -/
theorem sameExcept_afterReset {W : Part → Prop} (hevents : W .events) (hdraws : W .draws) (hmem : ∀ a, W (.byte a)) :
    SameExcept W State.reset (s.afterReset rom low) :=
  (sameExcept_setMem (resetMemory rom low) fun a ha => absurd (hmem a) ha).trans <|
    (sameCore_setEnvironment _ s.events s.draws).mono fun _ hp => hp.elim (· ▸ hevents) (· ▸ hdraws)

end Reset

/-! ## The obligations -/

/-- Settles O46: LOW_IMAGE ends below 0x200, so a read there finds the ROM's own byte. -/
theorem resetPlacesTheRomVerbatim : Obligations.ResetPlacesTheRomVerbatim := by
  intro s rom low hfits
  refine ⟨_, applyEvent_reset_of_fits low s hfits, fun k hk => ?_⟩
  exact (Memory.read_resetMemory_high rom low (Nat.le_add_right ..)).trans (Memory.read_ofBytes_inside hk)

/-- Settles O47: the frame of Reset, and the reads of its memory below and above the ROM (D3, D4, D5, D16). -/
theorem resetEventLeavesTheResetState : Obligations.ResetEventLeavesTheResetState := by
  intro s rom low hfits
  refine ⟨_, applyEvent_reset_of_fits low s hfits,
    sameExcept_afterReset low s (.inl rfl) (.inr (.inl rfl)) fun a => .inr (.inr ⟨a, rfl⟩),
    Memory.read_resetMemory_low rom low, fun a ha => ?_⟩
  exact (Memory.read_resetMemory_high rom low (by omega)).trans (Memory.read_ofBytes_outside (.inr ha))

/-- Settles O48: the bound of R242 is the guard of the Reset event (D25). -/
theorem oversizeRomHasNoTransition : Obligations.OversizeRomHasNoTransition := fun s _ low hlong =>
  applyEvent_reset_of_oversize low s hlong

end Sys2Proof.Machine

/-! SUPPORT. The other statements: the list of illegal opcodes against the decoder, and the values at reset -/

namespace Sys2Proof.Machine

/-! ## The list of illegal opcodes in the decoder's fields (R72, R77) -/

/-- R77 read through the fields the decoder branches on; line by line as in `IllegalOpcode`. -/
theorem illegalOpcode_iff_fields (w : Word) : IllegalOpcode w ↔
    (fieldFamily w = 0x0 ∧ w ≠ 0x00E0 ∧ w ≠ 0x00EE) ∨
    (fieldFamily w = 0x5 ∧ fieldN w ≠ 0) ∨
    (fieldFamily w = 0x8 ∧ fieldN w ∈ [0x8, 0x9, 0xA, 0xB, 0xC, 0xD, 0xF]) ∨
    (fieldFamily w = 0x9 ∧ fieldN w ≠ 0) ∨
    fieldFamily w = 0xB ∨
    (fieldFamily w = 0xE ∧ (fieldNN w).toNat ∉ [0x9E, 0xA1]) ∨
    (fieldFamily w = 0xF ∧ (fieldNN w).toNat ∉ [0x07, 0x0A, 0x15, 0x1E, 0x33, 0x55, 0x65]) := by
  have hfamily0 : w.toNat ≤ 0x0FFF ↔ w.toNat / 0x1000 = 0x0 := by omega
  have hfamilyB : 0xB000 ≤ w.toNat ∧ w.toNat ≤ 0xBFFF ↔ w.toNat / 0x1000 = 0xB := by omega
  have hnn : (fieldNN w).toNat = w.toNat % 0x100 := BitVec.toNat_setWidth 8 w
  rw [IllegalOpcode, hfamily0, hfamilyB, hnn, fieldFamily, fieldN]

/-- An answer of the decoder agrees with R77 for `w`: an instruction for an opcode outside the list, and for a listed one
the rejection that names it. -/
def AgreesWithList (w : Word) : Except Reject Instr → Prop
  | .ok _ => ¬ IllegalOpcode w
  | .error r => IllegalOpcode w ∧ r = .unknownOpcode w

section Agreement

variable {w : Word}

theorem decodeFamily0_agreesWithList (hf : fieldFamily w = 0x0) : AgreesWithList w (decodeFamily0 w) := by
  have hlist : IllegalOpcode w ↔ w ≠ 0x00E0 ∧ w ≠ 0x00EE := by simp [illegalOpcode_iff_fields, hf]
  fun_cases decodeFamily0 w with
  | case1 hw => exact fun h => (hlist.1 h).1 hw
  | case2 _ hw => exact fun h => (hlist.1 h).2 hw
  | case3 hcls hret => exact ⟨hlist.2 ⟨hcls, hret⟩, rfl⟩

theorem decodeFamily8_agreesWithList (hf : fieldFamily w = 0x8) : AgreesWithList w (decodeFamily8 w) := by
  have hlist : IllegalOpcode w ↔ fieldN w ∈ [0x8, 0x9, 0xA, 0xB, 0xC, 0xD, 0xF] := by
    simp [illegalOpcode_iff_fields, hf]
  fun_cases decodeFamily8 w with
  | case1 hn | case2 hn | case3 hn | case4 hn | case5 hn | case6 hn | case7 hn | case8 hn | case9 hn =>
    exact mt hlist.1 (by simp [hn])
  | case10 =>
    have hlt := fieldN_lt w
    refine ⟨hlist.2 ?_, rfl⟩
    simp only [List.mem_cons, List.not_mem_nil, imp_false] at *
    omega

theorem decodeFamilyE_agreesWithList (hf : fieldFamily w = 0xE) : AgreesWithList w (decodeFamilyE w) := by
  have hlist : IllegalOpcode w ↔ (fieldNN w).toNat ∉ [0x9E, 0xA1] := by simp [illegalOpcode_iff_fields, hf]
  fun_cases decodeFamilyE w with
  | case1 hnn | case2 hnn => exact mt hlist.1 (by simp [hnn])
  | case3 hskp hsknp => exact ⟨hlist.2 (by simpa using ⟨hskp, hsknp⟩), rfl⟩

theorem decodeFamilyF_agreesWithList (hf : fieldFamily w = 0xF) : AgreesWithList w (decodeFamilyF w) := by
  have hlist : IllegalOpcode w ↔ (fieldNN w).toNat ∉ [0x07, 0x0A, 0x15, 0x1E, 0x33, 0x55, 0x65] := by
    simp [illegalOpcode_iff_fields, hf]
  fun_cases decodeFamilyF w with
  | case1 hnn | case2 hnn | case3 hnn | case4 hnn | case5 hnn | case6 hnn | case7 hnn =>
    exact mt hlist.1 (by simp [hnn])
  | case8 h07 h0A h15 h1E h33 h55 h65 => exact ⟨hlist.2 (by simpa using ⟨h07, h0A, h15, h1E, h33, h55, h65⟩), rfl⟩

/-- Outside families 0, 8, E and F the list is decided by the family digit, and in families 5 and 9 by N. -/
theorem decode_agreesWithList (w : Word) : AgreesWithList w (decode w) := by
  fun_cases decode w with
  | case1 hf => exact decodeFamily0_agreesWithList hf
  | case10 hf => exact decodeFamily8_agreesWithList hf
  | case16 hf => exact decodeFamilyE_agreesWithList hf
  | case17 hf => exact decodeFamilyF_agreesWithList hf
  | case2 hf | case3 hf | case4 hf | case5 hf | case8 hf | case9 hf | case13 hf | case14 hf | case15 hf =>
    simp [AgreesWithList, illegalOpcode_iff_fields, hf]
  | case6 hf hn | case7 hf hn | case11 hf hn | case12 hf hn =>
    simp [AgreesWithList, illegalOpcode_iff_fields, hf, hn]
  | case18 =>
    have hlt := fieldFamily_lt w
    have hf : fieldFamily w = 0xB := by
      simp only [imp_false] at *
      omega
    simp [AgreesWithList, illegalOpcode_iff_fields, hf]

end Agreement

/-! ## The obligations -/

/-- Settles O4: the answer of the decoder agrees with the list, so each of the two outcomes says on which side the opcode
stands (D8). -/
theorem illegalOpcodesAreTheListedOnes : Obligations.IllegalOpcodesAreTheListedOnes := by
  intro w
  have hagrees := decode_agreesWithList w
  cases hd : decode w with
  | ok i =>
    rw [hd] at hagrees
    exact ⟨fun hlisted => absurd hlisted hagrees, fun _ => ⟨i, rfl⟩⟩
  | error r =>
    rw [hd] at hagrees
    obtain ⟨hlisted, rfl⟩ := hagrees
    exact ⟨fun _ => rfl, fun hnot => absurd hlisted hnot⟩

/-- Settles O45: the scalars are the literals of the reset state, and every entry of its arrays is the one they were
filled with (D3, D4, D5). -/
theorem resetStateHoldsTheResetValues : Obligations.ResetStateHoldsTheResetValues := by
  have hv : ∀ x, State.reset.getV x = 0 := fun x => Vector.getElem_replicate x.isLt
  have hstack : ∀ k : Fin 16, State.reset.stack[k] = 0 := fun k => Vector.getElem_replicate k.isLt
  exact ⟨rfl, rfl, rfl, rfl, rfl, hv, hstack, cell_cleared, fun _ => rfl⟩

end Sys2Proof.Machine
